-- ==== Sys2Proof/Word.lean ====
section
/-! DEFINITION. The word types of the engine: the byte of the buffers' memory, the int16 element, the
32-bit register word. The arithmetic on them is in Machine/Arith.lean. -/

namespace Sys2Proof

/-- One byte lane of a word (20_memory.md R64). -/
abbrev Byte := BitVec 8

/-- An int16 element of K, A, FSHI, FSLO, BUF0, BUF1 or NTAB (10_state.md R36), as its 16 bits. -/
abbrev Half := BitVec 16

/-- A 32-bit register value, a command word, or an int32 entry of R (10_state.md R30, R39). -/
abbrev Word := BitVec 32

end Sys2Proof
end

