-- ==== Sys2Proof/Syntax.lean ====
section
/-! DEFINITION. The commands of the engine as syntax: one constructor per row of
spec/opcode_table.json (30_encoding.md R83). -/

namespace Sys2Proof

/-- The two sample buffers a command's SRC or DST bit names (30_encoding.md R81: 0 = BUF0, 1 = BUF1). -/
inductive Buf where
  | b0
  | b1
deriving DecidableEq, Repr

/-- A command with the operands its opcode uses (30_encoding.md R84). A field the table marks
"ignored" has no effect (R84), so it is no operand here (log 15). `order` is N and `len` is L (00_scope.md
R14): counts, with the value the field holds, legal or not. -/
inductive Instr where
  /-- OP 0x0, no operation (R190). -/
  | nop
  /-- OP 0x1, autocorrelation of BUF[src] (R122). -/
  | acorr (order len : Nat) (src : Buf)
  /-- OP 0x2, Levinson-Durbin (R132, R133). -/
  | levdur (order : Nat)
  /-- OP 0x3, reflection coefficients to polynomial (R151). -/
  | k2a (order : Nat)
  /-- OP 0x4, noise samples into BUF[dst] (R162). -/
  | noise (len : Nat) (dst : Buf)
  /-- OP 0x5, all-pole filter of BUF[src] into BUF[dst] (R172). -/
  | synth (order len : Nat) (src dst : Buf)
deriving DecidableEq, Repr

end Sys2Proof
end

