-- ==== Sys2Proof/WellFormed.lean ====
section
/-! DEFINITION. Which commands a command word can carry: every operand fits its field of
30_encoding.md R81. The narrower legal ranges of R84, whose breach is the result BAD_PARAM and not an
ill-formed command, are in Machine/Operands.lean. -/

namespace Sys2Proof

/-- ORDER is a 4-bit field (R81). -/
def orderFits (n : Nat) : Bool := decide (n < 16)

/-- LEN is a 10-bit field (R81). -/
def lenFits (l : Nat) : Bool := decide (l < 1024)

/-- Every operand fits its field of the command word (R81, R82). -/
def Instr.wf : Instr → Bool
  | .nop => true
  | .acorr n l _ => orderFits n && lenFits l
  | .levdur n => orderFits n
  | .k2a n => orderFits n
  | .noise l _ => lenFits l
  | .synth n l _ _ => orderFits n && lenFits l

end Sys2Proof
end

