-- ==== Sys2Proof/Decode.lean ====
section
/-! DEFINITION. Decoding a command word (30_encoding.md R81 to R87), total on any word and any bytes,
rejecting by name; and after it the encoder (R88). -/

namespace Sys2Proof

/-- Why bits are no command. The first two are the illegal words of R85, which the engine completes with
RESULT = ILLEGAL; `truncated` is raised only where fewer than the four bytes of a word are given (R80). -/
inductive DecodeError where
  | reservedBits
  | reservedOpcode
  | truncated
deriving DecidableEq, Repr

/-- OP, bits 3:0 (R81). -/
def opField (w : Word) : Nat := (w.extractLsb' 0 4).toNat

/-- ORDER, bits 7:4, zero-extended (R81, R82). -/
def orderField (w : Word) : Nat := (w.extractLsb' 4 4).toNat

/-- LEN, bits 17:8, zero-extended (R81, R82). -/
def lenField (w : Word) : Nat := (w.extractLsb' 8 10).toNat

/-- RSV, bits 31:20 (R81). -/
def rsvField (w : Word) : Nat := (w.extractLsb' 20 12).toNat

/-- The buffer a selector bit names: 0 is BUF0, 1 is BUF1 (R81). -/
def bufOfBit : Bool → Buf
  | false => .b0
  | true => .b1

/-- SRC, bit 18 (R81). -/
def srcField (w : Word) : Buf := bufOfBit (w[18])

/-- DST, bit 19 (R81). -/
def dstField (w : Word) : Buf := bufOfBit (w[19])

/-- The command of an opcode with the fields of w (R83). -/
def decodeOpcode (w : Word) : Nat → Except DecodeError Instr
  | 0 => .ok .nop
  | 1 => .ok (.acorr (orderField w) (lenField w) (srcField w))
  | 2 => .ok (.levdur (orderField w))
  | 3 => .ok (.k2a (orderField w))
  | 4 => .ok (.noise (lenField w) (dstField w))
  | 5 => .ok (.synth (orderField w) (lenField w) (srcField w) (dstField w))
  | _ => .error .reservedOpcode

/-- Decode a command word: RSV first, then OP (R87). The operand ranges, whose breach is BAD_PARAM,
are checked by each command's meaning, after the word is known to be legal (R203). -/
def decodeWord (w : Word) : Except DecodeError Instr :=
  if rsvField w = 0 then decodeOpcode w (opField w) else .error .reservedBits

/-- The four bytes of a word as the window addresses them: the byte at offset k is bits 8k+7:8k
(20_memory.md R64). -/
def wordBytes (w : Word) : List Byte :=
  [w.extractLsb' 0 8, w.extractLsb' 8 8, w.extractLsb' 16 8, w.extractLsb' 24 8]

/-- Decode the command whose word is stored little-endian at the head of a list of bytes. -/
def decodeBytes : List Byte → Except DecodeError Instr
  | b0 :: b1 :: b2 :: b3 :: _ => decodeWord (b3 ++ b2 ++ b1 ++ b0)
  | _ => .error .truncated

/-- What the decoder reads from the low nbits bits of w, the rest of the command word being zero. -/
def decodeTableWord (nbits w : Nat) : Option Instr :=
  match decodeBytes (wordBytes (BitVec.ofNat 32 (w % 2 ^ nbits))) with
  | .ok i => some i
  | .error _ => none

/-- The selector bit of a buffer (R81). -/
def bitOfBuf : Buf → Nat
  | .b0 => 0
  | .b1 => 1

/-- The command word with the given fields and RSV = 0 (R81, R88). The fields of a well-formed
command do not overlap, so the sum is the OR of R88. -/
def commandWord (op order len src dst : Nat) : Word :=
  BitVec.ofNat 32 (op + order * 2 ^ 4 + len * 2 ^ 8 + src * 2 ^ 18 + dst * 2 ^ 19)

/-- The word of a command, with 0 in every ignored field and in RSV, as the assembler of R88 writes
it. -/
def encode : Instr → Word
  | .nop => commandWord 0 0 0 0 0
  | .acorr n l src => commandWord 1 n l (bitOfBuf src) 0
  | .levdur n => commandWord 2 n 0 0 0
  | .k2a n => commandWord 3 n 0 0 0
  | .noise l dst => commandWord 4 0 l 0 (bitOfBuf dst)
  | .synth n l src dst => commandWord 5 n l (bitOfBuf src) (bitOfBuf dst)

end Sys2Proof
end

