-- ==== Sys2Proof/Machine/Arith.lean ====
section
/-! DEFINITION. The fixed-point arithmetic of the commands, on mathematical integers with every
narrowing explicit (00_scope.md R11; 40_primitives.md R100 to R107). An int16 or int32 value is an Int
in its range; an element of an array enters by `toInt` and leaves by `toHalf` or `toWord`. -/

namespace Sys2Proof.Machine

/-- The unique int32 congruent to v modulo 2^32 (R11). -/
def wrap32 (v : Int) : Int := Int.bmod v (2 ^ 32)

/-- The unique int16 congruent to v modulo 2^16 (R11). -/
def trunc16 (v : Int) : Int := Int.bmod v (2 ^ 16)

/-- The bits of an int32. -/
def toWord (v : Int) : Word := BitVec.ofInt 32 v

/-- The bits of an int16; of a wider value, its bits 15:0 (R11, R36). -/
def toHalf (v : Int) : Half := BitVec.ofInt 16 v

/-- Arithmetic shift right, floor(v / 2^n) (R11). -/
def asr (v : Int) (n : Nat) : Int := v / 2 ^ n

/-- Shift left with 32-bit wrap (R11). -/
def shl32 (v : Int) (n : Nat) : Int := wrap32 (v * 2 ^ n)

/-- Absolute value with 32-bit wrap: abs32(-2^31) = -2^31 (R11). -/
def abs32 (v : Int) : Int := if 0 ≤ v then v else wrap32 (-v)

/-- The 16x16 to 32 multiplier: exact on int16 values (R100). -/
def mul16 (a b : Int) : Int := a * b

/-- num / den truncated toward zero and wrapped; 2^31 - 1 for den = 0 (R102). -/
def divW32W16 (num den : Int) : Int :=
  if den = 0 then 0x7FFFFFFF else wrap32 (Int.tdiv num den)

/-- The number of bits needed to write n (R104). -/
def sizeInBits (n : Nat) : Nat := if n = 0 then 0 else Nat.log2 n + 1

/-- The value whose leading zeros normW32 counts: x, or its complement -x-1 for negative x (R103). -/
def normMagnitude (x : Int) : Nat := if 0 < x then x.toNat else (-x - 1).toNat

/-- The number of redundant sign bits of an int32 minus one; 0 for 0 (R103). The leading zeros of a
32-bit word y are 32 - sizeInBits(y), by R104. -/
def normW32 (x : Int) : Nat := if x = 0 then 0 else 32 - sizeInBits (normMagnitude x) - 1

/-- The largest magnitude of a list of int16 values, clamped to 32767 (R105). -/
def maxAbs16 (xs : List Int) : Int :=
  min 32767 (xs.foldl (fun m x => max m (x.natAbs : Int)) 0)

/-- An int32 split into its high half and its 15-bit low half (R106). -/
structure HiLo where
  hi : Int
  lo : Int
deriving DecidableEq, Repr

/-- hi(x) (R106). -/
def hi16 (x : Int) : Int := trunc16 (asr x 16)

/-- lo(x) (R106). -/
def lo16 (x : Int) : Int := trunc16 (asr (wrap32 (x - hi16 x * 65536)) 1)

/-- Both halves of x (R106). -/
def split (x : Int) : HiLo := { hi := hi16 x, lo := lo16 x }

/-- The int32 two halves stand for (R106). -/
def join (h l : Int) : Int := wrap32 (h * 65536 + l * 2)

/-- The int32 a split value stands for (R106). -/
def HiLo.joined (p : HiLo) : Int := join p.hi p.lo

/-- The product of two split values without its low-by-low term, not yet wrapped:
hi*hi + asr(hi*lo, 15) + asr(lo*hi, 15), as R107 and R133 write it. -/
def HiLo.mul (x y : HiLo) : Int :=
  mul16 x.hi y.hi + asr (mul16 x.hi y.lo) 15 + asr (mul16 x.lo y.hi) 15

/-- The Q14 estimate of 1/den (R107, first line). -/
def recipEstimate (denHi : Int) : Int := trunc16 (divW32W16 0x1FFFFFFF denHi)

/-- 2 - den*approx in Q30 (R107, second and third lines). -/
def newtonResidual (approx : Int) (den : HiLo) : Int :=
  wrap32 (0x7FFFFFFF -
    wrap32 (shl32 (mul16 den.hi approx) 1 + shl32 (asr (mul16 den.lo approx) 15) 1))

/-- 1/den in Q29 (R107, fourth and fifth lines). -/
def recipRefined (approx : Int) (t : HiLo) : Int :=
  shl32 (mul16 t.hi approx + asr (mul16 t.lo approx) 15) 1

/-- num / den by one Newton step on the reciprocal estimate; total (R107). -/
def divHiLo (num : Int) (den : HiLo) : Int :=
  shl32 (wrap32 ((split num).mul
    (split (recipRefined (recipEstimate den.hi)
      (split (newtonResidual (recipEstimate den.hi) den)))))) 3

end Sys2Proof.Machine
end

