-- ==== Sys2Proof/Machine/State.lean ====
section
/-! DEFINITION. The state of the engine as plain data, the reasons a step can stop, and the state
after reset. INVENTORY.md's State section lists every field with its rule. -/

namespace Sys2Proof.Machine

/-- The stored bits of CTRL (10_state.md R23). SRESET stores nothing and the reserved bits read 0. -/
structure Ctrl where
  irqEn : Bool
  k0chk : Bool
  arrnd : Bool
  nidx : Bool
deriving DecidableEq, Repr

/-- The result codes of 60_exceptions.md R200; codes 4 to 15 are never produced (U8; log 17). -/
inductive ResultCode where
  | ok
  | unstable
  | illegal
  | badParam
deriving DecidableEq, Repr

/-- The fields of STATUS (10_state.md R25); the reserved bits read 0. -/
structure Status where
  busy : Bool
  done : Bool
  ovr : Bool
  result : ResultCode
  failidx : BitVec 4
deriving DecidableEq, Repr

/-- The three mode bits a command samples at issue (10_state.md R23, R37). -/
structure Modes where
  k0chk : Bool
  arrnd : Bool
  nidx : Bool
deriving DecidableEq, Repr

/-- What PENDING holds while a command waits for its step (10_state.md R37). -/
structure Pending where
  word : Word
  modes : Modes
deriving DecidableEq, Repr

/-- The byte memory of BUF0 and BUF1: (window offset, byte) pairs, offsets strictly rising. A byte that
is not listed has not been written since the hardware reset and has no value (70_reset_and_hazards.md
R245; log 4, log 5). -/
abbrev Memory := List Host.Cell

/-- What happens next at the engine's boundary. `read` and `write` are the host's register-port
transactions with their 16-bit offset and byte lanes (10_state.md R39, 20_memory.md R63); `reset` is
the reset input asserted and released (70_reset_and_hazards.md R230; log 11); `engine` is the point at
which the engine takes its step (46_control.md R192; log 1). -/
inductive Event where
  | read (offset : BitVec 16) (lanes : BitVec 4)
  | write (offset : BitVec 16) (lanes : BitVec 4) (data : Word)
  | reset
  | engine
deriving DecidableEq, Repr

/-- The register port's answer to the last transaction (10_state.md R39). A buserr is no value of this
type: it is the fault `busError` (60_exceptions.md R209). -/
inductive Answer where
  | noneYet
  | ok
  | data (word : Word)
deriving DecidableEq, Repr

/-- Why a step stops with a fault. Each is a fault of the HOST program that the spec tells a model to
raise; all are safe, since the hardware goes on where the model stops. -/
inductive Fault where
  /-- Raised by a transaction the port answers with `buserr`: a reserved offset, a misaligned address or
  fewer than four lanes (20_memory.md R63, 60_exceptions.md R209; log 9). Safe. -/
  | busError
  /-- Raised by a host access to guarded state between a command's issue and the host's observation of
  its completion (70_reset_and_hazards.md R240). Safe. -/
  | guardedAccess
  /-- Raised by ACORR, SYNTH or a host read of a buffer entry that nothing has written since the
  hardware reset (70_reset_and_hazards.md R245). Safe. -/
  | unwrittenBuffer
deriving DecidableEq, Repr

/-- Why a step is refused. No arm of `exec` answers a refusal. -/
inductive Refusal where
  /-- Raised by an arm of `exec` that has no meaning yet; none does. Safe. -/
  | notModelled (mnemonic : String)
deriving DecidableEq, Repr

/-- The machine. The first group is the spec's state; the last three fields are the model's own. -/
structure State where
  /-- CTRL (10_state.md R23). -/
  ctrl : Ctrl
  /-- STATUS (10_state.md R25). -/
  status : Status
  /-- CMD, the last accepted command word (10_state.md R27). -/
  cmd : Word
  /-- SEED bits 30:0 (10_state.md R28). -/
  seed : BitVec 31
  /-- ACSCALE bits 3:0 (10_state.md R29). -/
  acscale : BitVec 4
  /-- R[0..12] (10_state.md R30). -/
  r : Vector Word 13
  /-- K[0..11] (10_state.md R31). -/
  k : Vector Half 12
  /-- A[0..12] (10_state.md R32). -/
  a : Vector Half 13
  /-- FSHI[0..11] (10_state.md R33). -/
  fshi : Vector Half 12
  /-- FSLO[0..11] (10_state.md R33). -/
  fslo : Vector Half 12
  /-- BUF0 and BUF1 (10_state.md R34). -/
  mem : Memory
  /-- PENDING (10_state.md R37). -/
  pending : Option Pending
  /-- The events still to come (log 1). -/
  schedule : List Event
  /-- The port's last answer (log 10). -/
  answer : Answer
  /-- A command was issued and the host has not observed its completion since (R240, R193; log 8). -/
  awaiting : Bool
deriving DecidableEq, Repr

/-- Every field at the value of 10_state.md R40: CTRL = 0x00000010, SEED = 7777, every other register
and array 0, the buffers unwritten, PENDING empty; and no event scheduled. -/
def State.reset : State :=
  { ctrl := { irqEn := false, k0chk := true, arrnd := false, nidx := false }
    status := { busy := false, done := false, ovr := false, result := .ok, failidx := 0 }
    cmd := 0
    seed := 7777
    acscale := 0
    r := Vector.replicate 13 0
    k := Vector.replicate 12 0
    a := Vector.replicate 13 0
    fshi := Vector.replicate 12 0
    fslo := Vector.replicate 12 0
    mem := []
    pending := none
    schedule := []
    answer := .noneYet
    awaiting := false }

/-- What a command's meaning, a transaction or a step answers. -/
abbrev StepOutcome := Host.Outcome State Fault Refusal

end Sys2Proof.Machine
end

