-- ==== Sys2Proof/Machine/Flags.lean ====
section
/-! DEFINITION. CTRL, STATUS and the interrupt output: how the fields of the two registers read and
are written (10_state.md R23 to R26), the result codes (60_exceptions.md R200) and irq (R205). -/

namespace Sys2Proof.Machine

/-- A Bool as a field one bit wide at bit n of a register word. -/
def bitAt (n : Nat) (b : Bool) : Word := if b then BitVec.ofNat 32 (2 ^ n) else 0

/-- What a read of CTRL returns (R24). -/
def Ctrl.toWord (c : Ctrl) : Word :=
  bitAt 0 c.irqEn ||| bitAt 4 c.k0chk ||| bitAt 5 c.arrnd ||| bitAt 6 c.nidx

/-- The bits a write to CTRL stores; reserved bits are ignored (R24). -/
def ctrlOfWord (v : Word) : Ctrl :=
  { irqEn := v[0], k0chk := v[4], arrnd := v[5], nidx := v[6] }

/-- SRESET, bit 1 of a word written to CTRL (R23). -/
def softResetBit (v : Word) : Bool := v[1]

/-- The mode bits a command samples at issue (R37, R191). -/
def Ctrl.modes (c : Ctrl) : Modes := { k0chk := c.k0chk, arrnd := c.arrnd, nidx := c.nidx }

/-- The number of a result code (R200). -/
def ResultCode.toNat : ResultCode → Nat
  | .ok => 0
  | .unstable => 1
  | .illegal => 2
  | .badParam => 3

/-- What a read of STATUS returns (R25). -/
def Status.toWord (st : Status) : Word :=
  bitAt 0 st.busy ||| bitAt 1 st.done ||| bitAt 2 st.ovr |||
    BitVec.ofNat 32 (st.result.toNat * 2 ^ 4) ||| BitVec.ofNat 32 (st.failidx.toNat * 2 ^ 8)

/-- A write to STATUS: DONE and OVR are cleared by a 1, every other bit is ignored (R26). -/
def Status.written (st : Status) (v : Word) : Status :=
  { st with done := st.done && !v[1], ovr := st.ovr && !v[2] }

/-- STATUS after the issue of a command: OVR is kept (R191). -/
def Status.issued (st : Status) : Status :=
  { busy := true, done := false, ovr := st.ovr, result := .ok, failidx := 0 }

/-- STATUS after the completion of a command: OVR is kept (R200). -/
def Status.completed (st : Status) (code : ResultCode) (f : Nat) : Status :=
  { busy := false, done := true, ovr := st.ovr, result := code, failidx := BitVec.ofNat 4 f }

/-- The interrupt output, a level (R205). -/
def State.irq (s : State) : Bool := s.ctrl.irqEn && s.status.done

/-- The mode bits a running command sees: those sampled at its issue (R192, R242). With nothing pending
the engine takes no step; the bits CTRL holds are then what an issue would sample (log 12). -/
def State.modes (s : State) : Modes :=
  match s.pending with
  | some p => p.modes
  | none => s.ctrl.modes

end Sys2Proof.Machine
end

