-- ==== Sys2Proof/Machine/Ops.lean ====
section
/-! DEFINITION. The named operations over the buffers' memory, the register arrays and the command
life cycle: issue (46_control.md R191), completion (60_exceptions.md R200) and the two resets
(70_reset_and_hazards.md R230, R232). The engine takes no traps (R207): completion with a result code
is what it has in place of exception entry, and there is nothing to return from (R208). -/

namespace Sys2Proof.Machine

/-- The byte at a window offset of the buffers, if something has written it since the hardware reset
(10_state.md R34; log 4). -/
def readByte : Memory → Nat → Option Byte
  | [], _ => none
  | c :: m, x => if c.1 = x then some c.2 else readByte m x

/-- Store one byte, keeping the offsets strictly rising. -/
def writeByte : Memory → Nat → Byte → Memory
  | [], x, v => [(x, v)]
  | c :: m, x, v =>
    if x < c.1 then (x, v) :: c :: m
    else if x = c.1 then (x, v) :: m
    else c :: writeByte m x v

/-- The window offset of a buffer's element 0 (10_state.md R21). -/
def bufBase : Buf → Nat
  | .b0 => 0x1000
  | .b1 => 0x2000

/-- The window offset of BUF[b][i] (10_state.md R21, 46_control.md R196). -/
def sampleAddr (b : Buf) (i : Nat) : Nat := bufBase b + 4 * i

/-- The window offsets at which a buffer stores a byte: the two low lanes of each of its 640 words
(10_state.md R21, R36; log 5). -/
def isBufferByte (x : Nat) : Bool :=
  (decide (0x1000 ≤ x ∧ x < 0x1A00) || decide (0x2000 ≤ x ∧ x < 0x2A00)) && decide (x % 4 < 2)

/-- The one canonical form of the memory: offsets strictly rising, each the offset of a stored byte.
(An unlisted byte has no value, so no entry equals it.) -/
abbrev Memory.wf (m : Memory) : Prop :=
  m.Pairwise (fun c d => c.1 < d.1) ∧ ∀ c ∈ m, isBufferByte c.1 = true

/-- BUF[b][i], if both its bytes have been written (10_state.md R36, 20_memory.md R64). -/
def readSample (m : Memory) (b : Buf) (i : Nat) : Option Half :=
  match readByte m (sampleAddr b i), readByte m (sampleAddr b i + 1) with
  | some lo, some hi => some (hi ++ lo)
  | _, _ => none

/-- BUF[b][i] <- v (10_state.md R36, 20_memory.md R64). -/
def writeSample (m : Memory) (b : Buf) (i : Nat) (v : Half) : Memory :=
  writeByte (writeByte m (sampleAddr b i) (v.extractLsb' 0 8)) (sampleAddr b i + 1)
    (v.extractLsb' 8 8)

/-- BUF[b][i..i+n-1], if every one of them has been written (R245). -/
def readSamples (m : Memory) (b : Buf) (i : Nat) : Nat → Option (List Half)
  | 0 => some []
  | n + 1 =>
    match readSample m b i with
    | none => none
    | some x =>
      match readSamples m b (i + 1) n with
      | none => none
      | some xs => some (x :: xs)

/-- Store a list at BUF[b][i], BUF[b][i+1], ... -/
def writeSamples (m : Memory) (b : Buf) (i : Nat) : List Half → Memory
  | [] => m
  | x :: xs => writeSamples (writeSample m b i x) b (i + 1) xs

/-- Store a list at entries i, i+1, ... of a register array; the other entries keep their values. -/
def writeFrom {w n : Nat} (v : Vector (BitVec w) n) (i : Nat) : List (BitVec w) → Vector (BitVec w) n
  | [] => v
  | x :: xs => writeFrom (v.setIfInBounds i x) (i + 1) xs

/-- The first `count` entries of a register array as integers (R11). -/
def firstInts {w n : Nat} (v : Vector (BitVec w) n) (count : Nat) : List Int :=
  (v.toList.take count).map BitVec.toInt

/-- complete(code, f): RESULT, FAILIDX, BUSY, DONE and PENDING (R200). With the interrupt enabled, irq
rises here and the host has observed the completion (R193, R205). -/
def complete (code : ResultCode) (f : Nat) (s : State) : State :=
  { s with
    status := s.status.completed code f
    pending := none
    awaiting := s.awaiting && !s.ctrl.irqEn }

/-- Issue of a command word: CMD, PENDING with the mode bits sampled now, and STATUS (R191). -/
def issue (w : Word) (s : State) : State :=
  { s with
    cmd := w
    pending := some { word := w, modes := s.ctrl.modes }
    status := s.status.issued
    awaiting := true }

/-- The reset input asserted and released: every piece of the engine's state at its reset value, the
buffers unspecified, a pending command abandoned (R230). The events still to come are no state of the
engine. -/
def hardReset (s : State) : State := { State.reset with schedule := s.schedule }

/-- The soft reset: as the hardware reset, but the buffers keep their contents (R232). The port's
answer is no state of the engine either. -/
def softReset (s : State) : State :=
  { State.reset with mem := s.mem, schedule := s.schedule, answer := s.answer }

end Sys2Proof.Machine
end

