-- ==== Sys2Proof/Machine/Operands.lean ====
section
/-! DEFINITION. The operand forms of the commands: their legal ranges (30_encoding.md R84, the checks
of R87 that give BAD_PARAM) and how a command reads its inputs. -/

namespace Sys2Proof.Machine

/-- N in 1..12, the order of LEVDUR, K2A and SYNTH (R84). -/
def orderLegal (n : Nat) : Bool := decide (1 ≤ n ∧ n ≤ 12)

/-- L in 1..640, the length of ACORR, NOISE and SYNTH (R84). -/
def lenLegal (l : Nat) : Bool := decide (1 ≤ l ∧ l ≤ 640)

/-- ACORR's lags: N in 0..12 and N <= L (R84). -/
def lagsLegal (n l : Nat) : Bool := decide (n ≤ 12 ∧ n ≤ l)

/-- The input samples BUF[b][0..l-1] as integers, if all are written (R122, R172, R245). -/
def inputSamples (s : State) (b : Buf) (l : Nat) : Option (List Int) :=
  match readSamples s.mem b 0 l with
  | some xs => some (xs.map BitVec.toInt)
  | none => none

end Sys2Proof.Machine
end

