-- ==== Sys2Proof/Machine/Autocorrelation.lean ====
section
/-! DEFINITION. ACORR (41_autocorrelation.md R121, R122). -/

namespace Sys2Proof.Machine

/-- The scale shift of a frame (R121); L is the length of the list. -/
def acScale (xs : List Int) : Nat :=
  let smax := maxAbs16 xs
  if smax = 0 then 0
  else
    let nbits := sizeInBits xs.length
    let t := normW32 (mul16 smax smax)
    if nbits < t then 0 else nbits - t

/-- The sum of lag i: each product shifted, then summed, with 32-bit wrap at each addition (R122). The
pairs are (x[j], x[i+j]) for j in 0..L-1-i. -/
def lagSum (sc : Nat) (xs : List Int) (i : Nat) : Int :=
  (List.zipWith mul16 xs (xs.drop i)).foldl (fun s p => wrap32 (s + asr p sc)) 0

/-- The zero-lag clamp: R[0] = 0 becomes 32767 (R122). -/
def clampZeroLag : List Int → List Int
  | [] => []
  | r0 :: rs => (if r0 = 0 then 32767 else r0) :: rs

/-- R[0..order] of a frame (R122). -/
def autocorrelation (order : Nat) (xs : List Int) : List Int :=
  clampZeroLag ((List.range (order + 1)).map (lagSum (acScale xs) xs))

/-- The writes of ACORR on the frame xs, before completion (R122). -/
def acorrWrites (order : Nat) (xs : List Int) (s : State) : State :=
  { s with
    r := writeFrom s.r 0 ((autocorrelation order xs).map toWord)
    acscale := BitVec.ofNat 4 (acScale xs) }

/-- ACORR (R122): BAD_PARAM for an operand out of range (R202), a fault for an unwritten input sample
(R245), else R[0..N] and ACSCALE. -/
def execAcorr (order len : Nat) (src : Buf) (s : State) : StepOutcome :=
  if lagsLegal order len && lenLegal len then
    match inputSamples s src len with
    | none => .fault .unwrittenBuffer
    | some xs => .next (complete .ok 0 (acorrWrites order xs s))
  else .next (complete .badParam 0 s)

end Sys2Proof.Machine
end

