-- ==== Sys2Proof/Machine/Control.lean ====
section
/-! DEFINITION. NOP (46_control.md R190). -/

namespace Sys2Proof.Machine

/-- NOP completes with OK and touches nothing else (R190). -/
def execNop (s : State) : StepOutcome := .next (complete .ok 0 s)

end Sys2Proof.Machine
end

