-- ==== Sys2Proof/Machine/KToA.lean ====
section
/-! DEFINITION. K2A, the reflection-to-polynomial transform (43_k2a.md R150, R151). -/

namespace Sys2Proof.Machine

/-- A Q15 coefficient rounded to Q12 (R151). -/
def q15ToQ12 (k : Int) : Int := trunc16 (asr (k + 4) 3)

/-- The rounded product a*K of the step-up (R151). -/
def stepProduct (a k : Int) : Int := trunc16 (asr (mul16 a k + 16384) 15)

/-- tmp[i+1] for i in 0..m-1, from a[1..m]: a[m-i] for i = 0, 1, ... is the reversed list (R151). -/
def stepMiddle (k : Int) (as : List Int) : List Int :=
  List.zipWith (fun x y => trunc16 (x + stepProduct y k)) as as.reverse

/-- The step up from a[1..m] to a[1..m+1] with coefficient K[m] (R151). From no coefficients, it is
a[1] = Q12 of K[0]. -/
def stepUpQ12 (as : List Int) (k : Int) : List Int := stepMiddle k as ++ [q15ToQ12 k]

/-- A[0..N] from K[0..N-1] (R151). -/
def kToA (ks : List Int) : List Int := 4096 :: ks.foldl stepUpQ12 []

/-- The writes of K2A, before completion (R151). -/
def k2aWrites (order : Nat) (s : State) : State :=
  { s with a := writeFrom s.a 0 ((kToA (firstInts s.k order)).map toHalf) }

/-- K2A (R151): BAD_PARAM for an order out of range (R202), else A[0..N]. -/
def execK2a (order : Nat) (s : State) : StepOutcome :=
  if orderLegal order then .next (complete .ok 0 (k2aWrites order s))
  else .next (complete .badParam 0 s)

end Sys2Proof.Machine
end

