-- ==== Sys2Proof/Machine/Levinson.lean ====
section
/-! DEFINITION. LEVDUR, the Levinson-Durbin recursion (42_levinson.md R130 to R138). The arrays R_hi,
R_lo, A_hi, A_lo of R133 are lists of split values: `R[1..i-1]` and `A[1..i-1]` in increasing index,
so that A[i-j] for j = 1, 2, ... is the reversed list. -/

namespace Sys2Proof.Machine

/-- The normalized lags R_hi[0..N], R_lo[0..N]: every lag shifted left by normW32(R[0]) and split
(R131, R133). -/
def normalizedLags (rs : List Int) : List HiLo :=
  rs.map (fun x => split (shl32 x (normW32 (rs.headD 0))))

/-- A quotient with the sign of the numerator reversed: K = -num / den (R133, R134). -/
def negQuotient (num : Int) (den : HiLo) : Int :=
  if 0 < num then wrap32 (-divHiLo (abs32 num) den) else divHiLo (abs32 num) den

/-- De-normalization of a quotient by Alpha_exp, saturating where the shift would change the sign
(R133, R134, R135). -/
def denormalize (t : Int) (alphaExp : Nat) : Int :=
  if alphaExp ≤ normW32 t ∨ t = 0 then shl32 t alphaExp
  else if 0 < t then 0x7FFFFFFF
  else -0x80000000

/-- The stability check of one coefficient: |K_hi| > 32750 fails (R136). -/
def unstableCoef (kHi : Int) : Bool := decide (32750 < kHi.natAbs)

/-- 1 - K^2 in Q31, with the guard on K^2 (R133, R135). -/
def oneMinusSquare (k : HiLo) : Int :=
  wrap32 (0x7FFFFFFF -
    abs32 (wrap32 (2 * (asr (mul16 k.hi k.lo) 14 + mul16 k.hi k.hi))))

/-- The energy after a step before normalization: energy * (1 - K^2) (R133). -/
def energyUpdate (energy k : HiLo) : Int := shl32 (energy.mul (split (oneMinusSquare k))) 1

/-- The sum over j in 1..i-1 of R[j]*A[i-j], wrapped at every addition (R133). The arguments are
R[1..i-1] and A[1..i-1]. -/
def lagPredictor (rs as : List HiLo) : Int :=
  (List.zip rs as.reverse).foldl
    (fun t p => wrap32 (t + 2 * mul16 p.1.hi p.2.hi
      + 2 * (asr (mul16 p.1.hi p.2.lo) 15 + asr (mul16 p.1.lo p.2.hi) 15))) 0

/-- The numerator of step i: the sum in Q31 plus R[i] (R133). -/
def levNumerator (rs as : List HiLo) (ri : HiLo) : Int :=
  wrap32 (wrap32 (16 * lagPredictor rs as) + ri.joined)

/-- Anew[j] = A[j] + K*A[i-j] for j in 1..i-1 (R133). -/
def stepUpQ27 (k : HiLo) (as : List HiLo) : List HiLo :=
  List.zipWith (fun x y => split (wrap32 (x.joined + 2 * k.mul y))) as as.reverse

/-- What the recursion carries from step to step: A[1..i-1] in Q27, the normalized energy and its
exponent, and K[0..i-2] in Q15 (R131). -/
structure LevState where
  as : List HiLo
  alpha : HiLo
  alphaExp : Nat
  ks : List Int
deriving DecidableEq, Repr

/-- How the recursion ends: with every coefficient and the polynomial in Q27, or at the first
coefficient that fails, whose index is the last of `ks` (R136, R137). -/
inductive LevEnd where
  | stable (ks : List Int) (as : List HiLo)
  | unstable (ks : List Int)
deriving DecidableEq, Repr

/-- The coefficient of step i in Q31: de-normalized -num / Alpha (R133, R134). -/
def levCoef (rs : List HiLo) (ri : HiLo) (st : LevState) : Int :=
  denormalize (negQuotient (levNumerator rs st.as ri) st.alpha) st.alphaExp

/-- The state after step i with coefficient t (Q31), the check having passed (R133). -/
def levAdvance (t : Int) (st : LevState) : LevState :=
  { as := stepUpQ27 (split t) st.as ++ [split (asr t 4)]
    alpha := split (shl32 (energyUpdate st.alpha (split t))
      (normW32 (energyUpdate st.alpha (split t))))
    alphaExp := st.alphaExp + normW32 (energyUpdate st.alpha (split t))
    ks := st.ks ++ [hi16 t] }

/-- Steps 2..N: `rs` is R[1..i-1] and the list consumed is R[i..N] (R133). -/
def levLoop (rs : List HiLo) : List HiLo → LevState → LevEnd
  | [], st => .stable st.ks st.as
  | ri :: rest, st =>
    if unstableCoef (hi16 (levCoef rs ri st)) then
      .unstable (st.ks ++ [hi16 (levCoef rs ri st)])
    else levLoop (rs ++ [ri]) rest (levAdvance (levCoef rs ri st) st)

/-- The first coefficient in Q31: -R[1] / R[0], not de-normalized (R133, R134). -/
def firstCoef (r0 r1 : HiLo) : Int := negQuotient r1.joined r0

/-- The state after step 1 with coefficient t (R133). -/
def firstState (r0 : HiLo) (t : Int) : LevState :=
  { as := [split (asr t 4)]
    alpha := split (shl32 (energyUpdate r0 (split t)) (normW32 (energyUpdate r0 (split t))))
    alphaExp := normW32 (energyUpdate r0 (split t))
    ks := [hi16 t] }

/-- The whole recursion on R[0..N] (R133). The check of the first coefficient depends on K0CHK
(R136). A list of fewer than two lags does not occur: N >= 1. -/
def levinson (k0chk : Bool) (rs : List Int) : LevEnd :=
  match normalizedLags rs with
  | r0 :: r1 :: rest =>
    if k0chk && unstableCoef (hi16 (firstCoef r0 r1)) then .unstable [hi16 (firstCoef r0 r1)]
    else levLoop [r1] rest (firstState r0 (firstCoef r0 r1))
  | _ => .stable [] []

/-- One polynomial coefficient rounded from Q27 to Q12 (R133, R138). -/
def q27ToQ12 (p : HiLo) : Int := trunc16 (asr (wrap32 (2 * p.joined + 32768)) 16)

/-- The state LEVDUR leaves: K, and on success A[0] = 4096 and A[1..N]; then completion with OK, or
with UNSTABLE and FAILIDX the index of the failing coefficient (R137, R138, R200). -/
def levdurEnd (s : State) : LevEnd → State
  | .stable ks as =>
    complete .ok 0
      { s with
        k := writeFrom s.k 0 (ks.map toHalf)
        a := writeFrom s.a 0 ((4096 :: as.map q27ToQ12).map toHalf) }
  | .unstable ks =>
    complete .unstable (ks.length - 1) { s with k := writeFrom s.k 0 (ks.map toHalf) }

/-- LEVDUR (R132, R133): BAD_PARAM for an order out of range (R202), else the recursion over R[0..N]
with K0CHK as sampled at issue. -/
def execLevdur (order : Nat) (s : State) : StepOutcome :=
  if orderLegal order then
    .next (levdurEnd s (levinson s.modes.k0chk (firstInts s.r (order + 1))))
  else .next (complete .badParam 0 s)

end Sys2Proof.Machine
end

