-- ==== Sys2Proof/Config.lean ====
section
/-! DEFINITION. The open parameters of the hardware as constants with no body: no proof can see
their values, so a statement holds whatever they are. (The third open parameter, LATENCY, is the
schedule in State; the fourth, the buffers' power-on contents, is the absence of a value.) -/

namespace Sys2Proof

/-- NOISE_TABLE : the 512 int16 values of the ROM NTAB (00_scope.md R7, 10_state.md R35, U1). No source
gives them (log 6). -/
opaque Config.noiseTable : Fin 512 → Half

/-- ENGINE_BASE : where the platform places the window in the host's address space (20_memory.md R66,
U3). The engine sees only offsets (log 7). -/
opaque Config.engineBase : Nat

end Sys2Proof
end

