-- ==== Sys2Proof/Machine/Noise.lean ====
section
/-! DEFINITION. NOISE, the deterministic noise source (44_noise.md R161, R162). -/

namespace Sys2Proof.Machine

/-- One update of the seed: (s * 69069 + 1) mod 2^31 (R162). -/
def lcgNext (s : BitVec 31) : BitVec 31 := BitVec.ofNat 31 (s.toNat * 69069 + 1)

/-- The table index of an updated seed: its bits from 23 up, or from 22 up with NIDX = 1 (R161). It is
below 512 (R161), so the reduction that makes it a table index changes nothing. -/
def noiseIndex (nidx : Bool) (s : BitVec 31) : Fin 512 :=
  Fin.ofNat 512 (s.toNat >>> (if nidx then 22 else 23))

/-- The seed after n updates (R162). -/
def lcgAfter (s : BitVec 31) : Nat → BitVec 31
  | 0 => s
  | n + 1 => lcgAfter (lcgNext s) n

/-- The n samples drawn from a seed, in order (R162). -/
def noiseSamples (nidx : Bool) (s : BitVec 31) : Nat → List Half
  | 0 => []
  | n + 1 => Config.noiseTable (noiseIndex nidx (lcgNext s)) :: noiseSamples nidx (lcgNext s) n

/-- The writes of NOISE, before completion (R162). -/
def noiseWrites (len : Nat) (dst : Buf) (s : State) : State :=
  { s with
    mem := writeSamples s.mem dst 0 (noiseSamples s.modes.nidx s.seed len)
    seed := lcgAfter s.seed len }

/-- NOISE (R162): BAD_PARAM for a length out of range (R202), else BUF[D][0..L-1] and SEED, with NIDX as
sampled at issue. -/
def execNoise (len : Nat) (dst : Buf) (s : State) : StepOutcome :=
  if lenLegal len then .next (complete .ok 0 (noiseWrites len dst s))
  else .next (complete .badParam 0 s)

end Sys2Proof.Machine
end

