-- ==== Sys2Proof/Machine/Synthesis.lean ====
section
/-! DEFINITION. SYNTH, the all-pole synthesis filter (45_synthesis.md R172 to R175). The history is held
newest first, so that h(i-1), h(i-2), ... are its entries in order (R173). -/

namespace Sys2Proof.Machine

/-- start minus the sum of A[j]*h(i-j) over j = 1..N, wrapped at every subtraction (R172). The first
list is A[1..N], the second the history. -/
def filterAcc (start : Int) (as hist : List Int) : Int :=
  (List.zip as hist).foldl (fun o p => wrap32 (o - mul16 p.1 p.2)) start

/-- The accumulator after the carry-low-correction: x[i] << 12, minus the high stream, plus the low
stream's carry (R172). -/
def filterSum (as histHi histLo : List Int) (x : Int) : Int :=
  wrap32 (filterAcc (wrap32 (x * 4096)) as histHi + asr (filterAcc 0 as histLo) 12)

/-- The output sample of an accumulator (R172). -/
def filterOutput (rnd o : Int) : Int := trunc16 (asr (wrap32 (o + rnd)) 12)

/-- The residual of an accumulator below its output sample (R172). -/
def filterResidual (rnd o : Int) : Int := trunc16 (o - filterOutput rnd o * 4096)

/-- The outputs (y[i], ylo[i]) for the inputs, in order, from a history newest first (R172, R173). -/
def filterLoop (rnd : Int) (as : List Int) : List Int → List Int → List Int → List (Int × Int)
  | [], _, _ => []
  | x :: xs, histHi, histLo =>
    (filterOutput rnd (filterSum as histHi histLo x),
      filterResidual rnd (filterSum as histHi histLo x)) ::
      filterLoop rnd as xs (filterOutput rnd (filterSum as histHi histLo x) :: histHi)
        (filterResidual rnd (filterSum as histHi histLo x) :: histLo)

/-- The rounding term: 2048 with ARRND = 1, else 0 (R172). -/
def rounding (arrnd : Bool) : Int := if arrnd then 2048 else 0

/-- All the outputs of SYNTH of the given order on the inputs xs: A[1..N] are entries 1..N of A, the
history is FSHI and FSLO with entry 11 the newest (R171, R172, R173). -/
def synthOutputs (order : Nat) (xs : List Int) (s : State) : List (Int × Int) :=
  filterLoop (rounding s.modes.arrnd) ((firstInts s.a (order + 1)).drop 1) xs
    (firstInts s.fshi 12).reverse (firstInts s.fslo 12).reverse

/-- The last 12 entries of a state array followed by new values (R174). -/
def shiftIn (v : Vector Half 12) (ys : List Half) : Vector Half 12 :=
  writeFrom v 0 ((v.toList ++ ys).drop ys.length)

/-- The writes of SYNTH, given its outputs, before completion (R172, R174, R175). -/
def synthWrites (dst : Buf) (ys : List (Int × Int)) (s : State) : State :=
  { s with
    fshi := shiftIn s.fshi (ys.map (fun p => toHalf p.1))
    fslo := shiftIn s.fslo (ys.map (fun p => toHalf p.2))
    mem := writeSamples s.mem dst 0 (ys.map (fun p => toHalf p.1)) }

/-- SYNTH (R172): BAD_PARAM for an operand out of range (R202), a fault for an unwritten input sample
(R245), else BUF[D][0..L-1], FSHI and FSLO, with ARRND as sampled at issue. Every input is read before
any output is written, so SRC may equal DST (R175). -/
def execSynth (order len : Nat) (src dst : Buf) (s : State) : StepOutcome :=
  if orderLegal order && lenLegal len then
    match inputSamples s src len with
    | none => .fault .unwrittenBuffer
    | some xs => .next (complete .ok 0 (synthWrites dst (synthOutputs order xs s) s))
  else .next (complete .badParam 0 s)

end Sys2Proof.Machine
end

