-- ==== Sys2Proof/Machine/Dispatch.lean ====
section
/-! DEFINITION. The meaning of each command, run as the engine's one step (46_control.md R192; log 18). -/

namespace Sys2Proof.Machine

def exec (i : Instr) (s : State) : Host.Outcome State Fault Refusal :=
  match i with
  | .nop => Sys2Proof.Machine.execNop s
  | .acorr order len src => Sys2Proof.Machine.execAcorr order len src s
  | .levdur order => Sys2Proof.Machine.execLevdur order s
  | .k2a order => Sys2Proof.Machine.execK2a order s
  | .noise len dst => Sys2Proof.Machine.execNoise len dst s
  | .synth order len src dst => Sys2Proof.Machine.execSynth order len src dst s

end Sys2Proof.Machine
end

