-- ==== Sys2Proof/Machine/Port.lean ====
section
/-! DEFINITION. The register port: the window's map (10_state.md R21, R41), what each register reads and
how each is written (R22 to R36), and the host's transactions (20_memory.md R60 to R63) with the
hazards a model faults on (70_reset_and_hazards.md R240, R245). -/

namespace Sys2Proof.Machine

/-- The registers of the window (R21). -/
inductive Register where
  | id
  | ctrl
  | status
  | cmd
  | seed
  | acscale
  | r (i : Fin 13)
  | k (i : Fin 12)
  | a (i : Fin 13)
  | fshi (i : Fin 12)
  | fslo (i : Fin 12)
  | buf (b : Buf) (i : Fin 640)
  | ntab (i : Fin 512)
deriving DecidableEq, Repr

/-- The window offset of a register (R21). -/
def Register.offset : Register → Nat
  | .id => 0x0000
  | .ctrl => 0x0004
  | .status => 0x0008
  | .cmd => 0x000C
  | .seed => 0x0010
  | .acscale => 0x0014
  | .r i => 0x0100 + 4 * i.val
  | .k i => 0x0140 + 4 * i.val
  | .a i => 0x0180 + 4 * i.val
  | .fshi i => 0x01C0 + 4 * i.val
  | .fslo i => 0x0200 + 4 * i.val
  | .buf b i => sampleAddr b i.val
  | .ntab i => 0x3000 + 4 * i.val

/-- The index of a word offset in an array of n words at a base, if it lies in the array (R21,
46_control.md R196). -/
def arrayIndex (base n x : Nat) : Option (Fin n) :=
  if h : base ≤ x ∧ (x - base) / 4 < n then some ⟨(x - base) / 4, h.2⟩ else none

/-- The register at a word offset of the control block (R21). -/
def controlRegister : Nat → Option Register
  | 0x0000 => some .id
  | 0x0004 => some .ctrl
  | 0x0008 => some .status
  | 0x000C => some .cmd
  | 0x0010 => some .seed
  | 0x0014 => some .acscale
  | _ => none

/-- The register at an offset; none for a misaligned or reserved one (R21, R41, R63). -/
def registerAt (x : Nat) : Option Register :=
  if x % 4 = 0 then
    (controlRegister x).or <|
    ((arrayIndex 0x0100 13 x).map .r).or <|
    ((arrayIndex 0x0140 12 x).map .k).or <|
    ((arrayIndex 0x0180 13 x).map .a).or <|
    ((arrayIndex 0x01C0 12 x).map .fshi).or <|
    ((arrayIndex 0x0200 12 x).map .fslo).or <|
    ((arrayIndex 0x1000 640 x).map (.buf .b0)).or <|
    ((arrayIndex 0x2000 640 x).map (.buf .b1)).or <|
    ((arrayIndex 0x3000 512 x).map .ntab)
  else none

/-- The register a transaction selects; none is the answer `buserr`: a reserved offset, a misaligned
address, or not all four lanes (R63). -/
def selectRegister (offset : BitVec 16) (lanes : BitVec 4) : Option Register :=
  if lanes = 0xF then registerAt offset.toNat else none

/-- The constant ID reads (R22). -/
def idValue : Word := 0x434E4701

/-- An int16 element as it reads: sign-extended to 32 bits (R36). -/
def elementWord (e : Half) : Word := e.signExtend 32

/-- What an int16 element stores of a written word: bits 15:0 (R36). -/
def elementOfWord (v : Word) : Half := v.extractLsb' 0 16

/-- What a register reads (R22 to R36); none for a buffer entry nothing has written (R245). -/
def readRegister (s : State) : Register → Option Word
  | .id => some idValue
  | .ctrl => some s.ctrl.toWord
  | .status => some s.status.toWord
  | .cmd => some s.cmd
  | .seed => some (s.seed.zeroExtend 32)
  | .acscale => some (s.acscale.zeroExtend 32)
  | .r i => some s.r[i]
  | .k i => some (elementWord s.k[i])
  | .a i => some (elementWord s.a[i])
  | .fshi i => some (elementWord s.fshi[i])
  | .fslo i => some (elementWord s.fslo[i])
  | .buf b i => (readSample s.mem b i.val).map elementWord
  | .ntab i => some (elementWord (Config.noiseTable i))

/-- A write to CTRL: the field bits, or the soft reset where bit 1 is written 1, which reloads CTRL
itself (R24, R232). With irq rising, the host has observed the completion (R193). -/
def writeCtrl (v : Word) (s : State) : State :=
  if softResetBit v then softReset s
  else
    { s with
      ctrl := ctrlOfWord v
      awaiting := s.awaiting && !((ctrlOfWord v).irqEn && s.status.done) }

/-- A write to CMD: issue with BUSY = 0; with BUSY = 1 only OVR is set (R27, R191, R241). -/
def writeCmd (v : Word) (s : State) : State :=
  if s.status.busy then { s with status := { s.status with ovr := true } } else issue v s

/-- What a write of v to a register does (R24 to R36, R61). -/
def writeRegister (v : Word) (s : State) : Register → State
  | .id => s
  | .ctrl => writeCtrl v s
  | .status => { s with status := s.status.written v }
  | .cmd => writeCmd v s
  | .seed => { s with seed := v.extractLsb' 0 31 }
  | .acscale => s
  | .r i => { s with r := s.r.set i v }
  | .k i => { s with k := s.k.set i (elementOfWord v) }
  | .a i => { s with a := s.a.set i (elementOfWord v) }
  | .fshi i => { s with fshi := s.fshi.set i (elementOfWord v) }
  | .fslo i => { s with fslo := s.fslo.set i (elementOfWord v) }
  | .buf b i => { s with mem := writeSample s.mem b i.val (elementOfWord v) }
  | .ntab _ => s

/-- The registers the host must leave alone while a command runs (R240). -/
def Register.guarded : Register → Bool
  | .id => false
  | .ctrl => false
  | .status => false
  | .cmd => false
  | .seed => true
  | .acscale => true
  | .r _ => true
  | .k _ => true
  | .a _ => true
  | .fshi _ => true
  | .fslo _ => true
  | .buf _ _ => true
  | .ntab _ => false

/-- A command is running, or has been issued and not been seen to complete (R240; log 8). -/
def State.guards (s : State) : Bool := s.status.busy || s.awaiting

/-- What a host read tells the host about completion: a STATUS read with BUSY = 0 observes it
(46_control.md R193). -/
def observed (reg : Register) (s : State) : State :=
  if reg = .status ∧ s.status.busy = false then { s with awaiting := false } else s

/-- A read transaction (R60, R63, R240, R245; the order of the faults: log 14). -/
def hostRead (offset : BitVec 16) (lanes : BitVec 4) (s : State) : StepOutcome :=
  match selectRegister offset lanes with
  | none => .fault .busError
  | some reg =>
    if reg.guarded && s.guards then .fault .guardedAccess
    else
      match readRegister s reg with
      | none => .fault .unwrittenBuffer
      | some w => .next (observed reg { s with answer := .data w })

/-- A write transaction (R61, R63, R240; log 14). -/
def hostWrite (offset : BitVec 16) (lanes : BitVec 4) (v : Word) (s : State) : StepOutcome :=
  match selectRegister offset lanes with
  | none => .fault .busError
  | some reg =>
    if reg.guarded && s.guards then .fault .guardedAccess
    else .next { writeRegister v s reg with answer := .ok }

/-- The host address of a window offset (R66, 30_encoding.md R89). -/
def hostAddress (offset : BitVec 16) : Nat := Config.engineBase + offset.toNat

/-- The window offset a host address selects, if it lies in the 64 KiB window (R21, R66). -/
def windowOffset (address : Nat) : Option (BitVec 16) :=
  if Config.engineBase ≤ address ∧ address < Config.engineBase + 0x10000 then
    some (BitVec.ofNat 16 (address - Config.engineBase))
  else none

end Sys2Proof.Machine
end

