-- ==== Sys2Proof/Machine/Engine.lean ====
section
/-! DEFINITION. The engine's step for the pending command (46_control.md R192) and what one event of the
schedule does. -/

namespace Sys2Proof.Machine

/-- Run a command word: an illegal word completes with ILLEGAL and nothing else (60_exceptions.md R201),
any other is decoded and executed (R87, R192). -/
def runWord (w : Word) (s : State) : StepOutcome :=
  match decodeWord w with
  | .ok i => exec i s
  | .error _ => .next (complete .illegal 0 s)

/-- The engine's one step, enabled only while BUSY = 1 (R192). With nothing pending the engine takes no
step (60_exceptions.md R216; log 3, log 13). -/
def engineStep (s : State) : StepOutcome :=
  match s.pending with
  | some p => if s.status.busy then runWord p.word s else .next s
  | none => .next s

/-- What one event does (20_memory.md R62, 70_reset_and_hazards.md R230). -/
def runEvent (e : Event) (s : State) : StepOutcome :=
  match e with
  | .read offset lanes => hostRead offset lanes s
  | .write offset lanes data => hostWrite offset lanes data s
  | .reset => .next (hardReset s)
  | .engine => engineStep s

/-- A command word issued with the engine's turn next: what a CMD write leaves when the engine acts
before the host's next transaction (R191, R192; log 2). -/
def stagedWord (w : Word) (s : State) : State :=
  { issue w s with schedule := .engine :: s.schedule }

end Sys2Proof.Machine
end

