-- ==== Sys2Proof/Machine/Step.lean ====
section
/-! DEFINITION. One step of the machine: the next event of the schedule, each indivisible (20_memory.md
R62). -/

namespace Sys2Proof.Machine

/-- The next event of the schedule. With no event left the engine takes its step if a command is
pending, as the fairness assumption of 46_control.md R192 asks, and else nothing happens (log 1,
log 3). -/
def step (s : State) : Host.Outcome State Fault Refusal :=
  match s.schedule with
  | [] => engineStep s
  | e :: rest => runEvent e { s with schedule := rest }

/-- s with the command word whose low nbits bits are those of w issued and the engine's turn next
(log 2). -/
def State.withFetchWord (s : State) (nbits w : Nat) : State :=
  stagedWord (BitVec.ofNat 32 (w % 2 ^ nbits)) s

end Sys2Proof.Machine
end

