-- ==== Sys2Proof/Safety.lean ====
section
/-! DEFINITION. What the claims are stated in: the legal commands, the engine's own part of the state,
the invariant, and the pseudocode of LEVDUR and K2A written over arrays indexed as in the spec, which
the list recursions of the machine are claimed to agree with. -/

namespace Sys2Proof.Machine

/-- The engine's state without the model's own fields: what the spec gives the machine. -/
def State.arch (s : State) : State :=
  { s with schedule := [], answer := .noneYet, awaiting := false }

/-- The operands are in the legal ranges of 30_encoding.md R84. -/
def legal : Instr → Prop
  | .nop => True
  | .acorr n l _ => n ≤ 12 ∧ n ≤ l ∧ 1 ≤ l ∧ l ≤ 640
  | .levdur n => 1 ≤ n ∧ n ≤ 12
  | .k2a n => 1 ≤ n ∧ n ≤ 12
  | .noise l _ => 1 ≤ l ∧ l ≤ 640
  | .synth n l _ _ => 1 ≤ n ∧ n ≤ 12 ∧ 1 ≤ l ∧ l ≤ 640

/-- BUF[b][0..l-1] are all written and hold the int16 values x 0, ..., x (l-1). -/
def holdsSamples (s : State) (b : Buf) (l : Nat) (x : Nat → Int) : Prop :=
  ∀ j, j < l → ∃ h : Half, readSample s.mem b j = some h ∧ x j = h.toInt

/-- The offset x holds no byte of BUF[b][0..l-1]. -/
def outsideSamples (b : Buf) (l x : Nat) : Prop :=
  ∀ i, i < l → x ≠ sampleAddr b i ∧ x ≠ sampleAddr b i + 1

/-- A read of the word at window offset x answers w and changes no state of the engine. -/
def State.readsAs (s : State) (x : Nat) (w : Word) : Prop :=
  ∃ t, hostRead (BitVec.ofNat 16 x) 0xF s = .next t ∧ t.answer = .data w ∧ t.arch = s.arch

/-- A write of v to the word at window offset x answers ok and leaves the engine's part of u, in which
that word reads as w. -/
def State.storesAs (s : State) (x : Nat) (v : Word) (u : State) (w : Word) : Prop :=
  ∃ t, hostWrite (BitVec.ofNat 16 x) 0xF v s = .next t ∧ t.answer = .ok ∧ t.arch = u.arch ∧ t.readsAs x w

/-- The reserved word offsets of 10_state.md R41. -/
def reservedOffset (x : Nat) : Prop :=
  (0x0018 ≤ x ∧ x ≤ 0x00FC) ∨ (0x0134 ≤ x ∧ x ≤ 0x013C) ∨ (0x0170 ≤ x ∧ x ≤ 0x017C) ∨
  (0x01B4 ≤ x ∧ x ≤ 0x01BC) ∨ (0x01F0 ≤ x ∧ x ≤ 0x01FC) ∨ (0x0230 ≤ x ∧ x ≤ 0x0FFC) ∨
  (0x1A00 ≤ x ∧ x ≤ 0x1FFC) ∨ (0x2A00 ≤ x ∧ x ≤ 0x2FFC) ∨ (0x3800 ≤ x ∧ x ≤ 0xFFFC)

/-- The field mask of a command: OP, RSV and the fields its opcode uses (R84). -/
def usedMask : Instr → Word
  | .nop => 0xFFF0000F
  | .acorr _ _ _ => 0xFFF7FFFF
  | .levdur _ => 0xFFF000FF
  | .k2a _ => 0xFFF000FF
  | .noise _ _ => 0xFFFBFF0F
  | .synth _ _ _ _ => 0xFFFFFFFF

/-- Every buffer element has both its bytes listed or neither: an int16 is written whole (10_state.md
R36). -/
def Memory.wholeSamples (m : Memory) : Prop :=
  ∀ (b : Buf) (i : Nat), (readByte m (sampleAddr b i)).isSome = (readByte m (sampleAddr b i + 1)).isSome

/-- What every reachable state satisfies: the memory's canonical form; BUSY = 1 exactly while PENDING
holds a command, whose word is CMD (R27, R37); RESULT and FAILIDX 0 and DONE 0 while it runs (R191);
FAILIDX 0 unless the result is UNSTABLE, and at most 11 (R25); ACSCALE at most 9 (R29); a running
command not yet observed, and none to observe while irq is high (R193). -/
structure State.Inv (s : State) : Prop where
  memory : s.mem.wf
  whole : s.mem.wholeSamples
  busyPending : s.status.busy = s.pending.isSome
  pendingWord : ∀ p, s.pending = some p → p.word = s.cmd
  busyStatus : s.status.busy = true →
    s.status.done = false ∧ s.status.result = .ok ∧ s.status.failidx = 0
  failidxUnstable : s.status.result ≠ .unstable → s.status.failidx = 0
  failidxRange : s.status.failidx.toNat ≤ 11
  acscaleRange : s.acscale.toNat ≤ 9
  busyAwaiting : s.status.busy = true → s.awaiting = true
  irqObserved : s.irq = true → s.awaiting = false

/-- The memory n knows every byte m knows, with the same value. -/
def Memory.extendedBy (m n : Memory) : Prop :=
  ∀ x v, readByte m x = some v → readByte n x = some v

/-! ### LEVDUR over indexed arrays (42_levinson.md R133) -/

/-- The hi/low division, line by line (40_primitives.md R107). -/
def pcDivHiLo (num denHi denLo : Int) : Int :=
  let approx := trunc16 (if denHi = 0 then 0x7FFFFFFF else wrap32 (Int.tdiv 0x1FFFFFFF denHi))
  let t1 := wrap32 (shl32 (denHi * approx) 1 + shl32 (asr (denLo * approx) 15) 1)
  let t2 := wrap32 (0x7FFFFFFF - t1)
  let t3 := shl32 (hi16 t2 * approx + asr (lo16 t2 * approx) 15) 1
  let t4 := wrap32 (hi16 num * hi16 t3 + asr (hi16 num * lo16 t3) 15 + asr (lo16 num * hi16 t3) 15)
  shl32 t4 3

/-- R_hi[j], R_lo[j]: the lags normalized by normW32(R[0]). -/
def pcLags (s : State) (j : Nat) : HiLo :=
  split (shl32 (s.r[j]?.getD 0).toInt (normW32 s.r[0].toInt))

/-- The variables of the pseudocode between two steps: A_hi and A_lo by index, Alpha, Alpha_exp, and
the coefficient of each step in Q31 by the index of K. -/
structure PcState where
  a : Nat → HiLo
  alpha : HiLo
  alphaExp : Nat
  coef : Nat → Int

/-- energy * (1 - K^2) for the coefficient t, before normalization. -/
def pcEnergy (e : HiLo) (t : Int) : Int :=
  let m := wrap32 (0x7FFFFFFF -
    abs32 (wrap32 (2 * (asr (hi16 t * lo16 t) 14 + hi16 t * hi16 t))))
  shl32 (e.hi * hi16 m + asr (e.hi * lo16 m) 15 + asr (e.lo * hi16 m) 15) 1

/-- Step 1. -/
def pcFirst (R : Nat → HiLo) : PcState :=
  let t2 := join (R 1).hi (R 1).lo
  let q := pcDivHiLo (abs32 t2) (R 0).hi (R 0).lo
  let t := if t2 > 0 then wrap32 (-q) else q
  let e := pcEnergy (R 0) t
  { a := fun _ => split (asr t 4)
    alpha := split (shl32 e (normW32 e))
    alphaExp := normW32 e
    coef := fun _ => t }

/-- The coefficient of step i in Q31, de-normalized. The sum over j is exact and wrapped once (00_scope.md
R12). -/
def pcCoef (R : Nat → HiLo) (st : PcState) (i : Nat) : Int :=
  let sum := ∑ j ∈ Finset.Ico 1 i, (2 * ((R j).hi * (st.a (i - j)).hi)
    + 2 * (asr ((R j).hi * (st.a (i - j)).lo) 15 + asr ((R j).lo * (st.a (i - j)).hi) 15))
  let t1 := wrap32 (wrap32 (16 * wrap32 sum) + join (R i).hi (R i).lo)
  let q := pcDivHiLo (abs32 t1) st.alpha.hi st.alpha.lo
  let t3 := if t1 > 0 then wrap32 (-q) else q
  if st.alphaExp ≤ normW32 t3 ∨ t3 = 0 then shl32 t3 st.alphaExp
  else if t3 > 0 then 0x7FFFFFFF
  else -0x80000000

/-- Step i, for i >= 2. -/
def pcStep (R : Nat → HiLo) (i : Nat) (st : PcState) : PcState :=
  let t := pcCoef R st i
  let e := pcEnergy st.alpha t
  { a := fun j =>
      if j = i then split (asr t 4)
      else split (wrap32 (join (st.a j).hi (st.a j).lo
        + 2 * (hi16 t * (st.a (i - j)).hi + asr (hi16 t * (st.a (i - j)).lo) 15
          + asr (lo16 t * (st.a (i - j)).hi) 15)))
    alpha := split (shl32 e (normW32 e))
    alphaExp := st.alphaExp + normW32 e
    coef := fun j => if j = i - 1 then t else st.coef j }

/-- The variables after step i + 1. -/
def pcRun (R : Nat → HiLo) : Nat → PcState
  | 0 => pcFirst R
  | m + 1 => pcStep R (m + 2) (pcRun R m)

/-- K_hi of the coefficient with index f, the coefficient of step f + 1. -/
def pcK (s : State) (f : Nat) : Int := hi16 ((pcRun (pcLags s) f).coef f)

/-- The coefficient with index f fails the stability check, K0CHK deciding whether the first one is
checked (R136). -/
def pcFails (s : State) (f : Nat) : Prop :=
  32750 < (pcK s f).natAbs ∧ (f = 0 → s.modes.k0chk = true)

/-- A[i] of order n, rounded from Q27 to Q12. -/
def pcA (s : State) (n i : Nat) : Int :=
  let t1 := join ((pcRun (pcLags s) (n - 1)).a i).hi ((pcRun (pcLags s) (n - 1)).a i).lo
  trunc16 (asr (wrap32 (2 * t1 + 32768)) 16)

/-! ### K2A over indexed arrays (43_k2a.md R151) -/

/-- a[i] of order m for the coefficients K. -/
def pcPoly (K : Nat → Int) : Nat → Nat → Int
  | 0, i => if i = 0 then 4096 else 0
  | m + 1, i =>
    if i = 0 then 4096
    else if i = m + 1 then trunc16 (asr (K m + 4) 3)
    else trunc16 (pcPoly K m i + trunc16 (asr (pcPoly K m (m + 1 - i) * K m + 16384) 15))

end Sys2Proof.Machine
end

