-- ==== Sys2Proof/Certificates/Slice0/Obligations.lean ====
section
/-! DEFINITION. The statements for the provers. Each docstring names the rule of spec/ it formalises.
`State.arch` is the state without the model's own fields; `complete` and `issue` are pinned by
`CompletionRecordsResult` and `CmdWriteIssuesOrOverruns`. -/

open Sys2Proof Sys2Proof.Machine

/-! ### Encoding -/

/-- 30_encoding.md R90: every row of its table. -/
def Obligations.SpecEncodingExamples : Prop :=
  (encode .nop = 0x00000000 ∧ decodeWord 0x00000000 = .ok .nop) ∧
  (encode (.acorr 3 8 .b0) = 0x00000831 ∧ decodeWord 0x00000831 = .ok (.acorr 3 8 .b0)) ∧
  (encode (.acorr 12 640 .b1) = 0x000680C1 ∧ decodeWord 0x000680C1 = .ok (.acorr 12 640 .b1)) ∧
  (encode (.levdur 3) = 0x00000032 ∧ decodeWord 0x00000032 = .ok (.levdur 3)) ∧
  (encode (.levdur 12) = 0x000000C2 ∧ decodeWord 0x000000C2 = .ok (.levdur 12)) ∧
  (encode (.k2a 1) = 0x00000013 ∧ decodeWord 0x00000013 = .ok (.k2a 1)) ∧
  (encode (.k2a 12) = 0x000000C3 ∧ decodeWord 0x000000C3 = .ok (.k2a 12)) ∧
  (encode (.noise 4 .b1) = 0x00080404 ∧ decodeWord 0x00080404 = .ok (.noise 4 .b1)) ∧
  (encode (.noise 80 .b0) = 0x00005004 ∧ decodeWord 0x00005004 = .ok (.noise 80 .b0)) ∧
  (encode (.synth 1 6 .b0 .b1) = 0x00080615 ∧ decodeWord 0x00080615 = .ok (.synth 1 6 .b0 .b1)) ∧
  (encode (.synth 12 640 .b1 .b1) = 0x000E80C5 ∧
    decodeWord 0x000E80C5 = .ok (.synth 12 640 .b1 .b1)) ∧
  (∀ s, runWord 0x00100000 s = .next (complete .illegal 0 s)) ∧
  (∀ s, runWord 0x00000006 s = .next (complete .illegal 0 s)) ∧
  (∀ s, decodeWord 0x00028115 = .ok (.synth 1 641 .b0 .b0) ∧
    runWord 0x00028115 s = .next (complete .badParam 0 s)) ∧
  (∀ s, decodeWord 0x000000D2 = .ok (.levdur 13) ∧
    runWord 0x000000D2 s = .next (complete .badParam 0 s)) ∧
  (∀ s, decodeWord 0x00000031 = .ok (.acorr 3 0 .b0) ∧
    runWord 0x00000031 s = .next (complete .badParam 0 s)) ∧
  (∀ s, decodeWord 0x00000231 = .ok (.acorr 3 2 .b0) ∧
    runWord 0x00000231 s = .next (complete .badParam 0 s)) ∧
  decodeWord 0x0000FFF0 = .ok .nop

/-- R81, R82, R88: decoding the word of a well-formed command, or its bytes as the window stores them
(R64), gives the command back, at every value of every operand its field admits. -/
def Obligations.DecodeEncodeRoundTrip : Prop :=
  ∀ i : Instr, i.wf = true →
    decodeWord (encode i) = .ok i ∧ decodeBytes (wordBytes (encode i)) = .ok i

/-- R81, R84: a word that decodes to i is well-formed as i and is the encoding of i in every field its
opcode uses, OP and RSV included; only ignored fields may differ. -/
def Obligations.DecodedWordIsItsEncoding : Prop :=
  ∀ (w : Word) (i : Instr), decodeWord w = .ok i → i.wf = true ∧ encode i = w &&& usedMask i

/-- R85, R87: the decoder rejects exactly the illegal words, RSV before OP. -/
def Obligations.IllegalWordsExactly : Prop :=
  ∀ w : Word,
    (decodeWord w = .error .reservedBits ↔ w.extractLsb' 20 12 ≠ 0) ∧
    (decodeWord w = .error .reservedOpcode ↔
      w.extractLsb' 20 12 = 0 ∧ 6 ≤ (w.extractLsb' 0 4).toNat) ∧
    ((∃ i, decodeWord w = .ok i) ↔ w.extractLsb' 20 12 = 0 ∧ (w.extractLsb' 0 4).toNat < 6)

/-! ### The engine's step and the life of a command -/

/-- R192, 20_memory.md R62: a step takes the event that is next. With a command pending, at the engine's
turn it runs the pending word, which is the meaning of the command decoded from it where it decodes; at a
read or a write it is that transaction. That the order of events is a list in the state, and that the
engine acts where no event is left, are the model's choices (log 1). -/
def Obligations.StepRunsDecodedCommand : Prop :=
  ∀ s : State,
    (∀ (p : Pending) (i : Instr) (rest : List Event),
      s.pending = some p → s.status.busy = true → decodeWord p.word = .ok i →
      (s.schedule = .engine :: rest → step s = exec i { s with schedule := rest }) ∧
      (s.schedule = [] → step s = exec i s)) ∧
    (∀ (p : Pending) (rest : List Event), s.pending = some p → s.status.busy = true →
      (s.schedule = .engine :: rest → step s = runWord p.word { s with schedule := rest }) ∧
      (s.schedule = [] → step s = runWord p.word s)) ∧
    (∀ (p : Pending) (rest : List Event) (e : DecodeError),
      s.pending = some p → s.status.busy = true → decodeWord p.word = .error e →
      s.schedule = .engine :: rest → step s = .next (complete .illegal 0 { s with schedule := rest })) ∧
    (∀ (x : BitVec 16) (l : BitVec 4) (rest : List Event), s.schedule = .read x l :: rest →
      step s = hostRead x l { s with schedule := rest }) ∧
    (∀ (x : BitVec 16) (l : BitVec 4) (v : Word) (rest : List Event),
      s.schedule = .write x l v :: rest → step s = hostWrite x l v { s with schedule := rest })

/-- The model's staging of a word (log 2): the very next step runs the command the decoder reads from
it, on the state its issue leaves (R191, R192). -/
def Obligations.StagedWordIsTheNextCommand : Prop :=
  ∀ (s : State) (nbits w : Nat) (i : Instr), decodeTableWord nbits w = some i →
    step (s.withFetchWord nbits w) = exec i (issue (BitVec.ofNat 32 (w % 2 ^ nbits)) s)

/-- R191, R27: a CMD write with BUSY = 0 issues and answers ok, whatever the word; with BUSY = 1 it sets
OVR and does nothing else; a read returns the last word stored, 0 after reset. -/
def Obligations.CmdWriteIssuesOrOverruns : Prop :=
  ∀ (s : State) (w : Word),
    (∃ t, hostWrite 0x000C 0xF w s = .next t ∧ t.answer = .ok ∧
      (s.status.busy = false →
        t.arch = { s with
          cmd := w
          pending := some { word := w, modes := { k0chk := s.ctrl.k0chk, arrnd := s.ctrl.arrnd, nidx := s.ctrl.nidx } }
          status := { busy := true, done := false, ovr := s.status.ovr, result := .ok, failidx := 0 } }.arch
        ∧ t.irq = false) ∧
      (s.status.busy = true → t.arch = { s with status := { s.status with ovr := true } }.arch)) ∧
    readRegister s .cmd = some s.cmd ∧ readRegister State.reset .cmd = some 0

/-- R200: what every command leaves in STATUS and PENDING when it runs to its end: BUSY 0, DONE 1, OVR as
before, PENDING empty; UNSTABLE only from LEVDUR, ILLEGAL exactly for an illegal word, BAD_PARAM exactly
for illegal operands, and FAILIDX 0 but for UNSTABLE. CMD and CTRL are untouched. -/
def Obligations.CompletionRecordsResult : Prop :=
  (∀ (c : ResultCode) (f : Nat) (s : State), (complete c f s).arch = { s with
      status := { busy := false, done := true, ovr := s.status.ovr, result := c, failidx := BitVec.ofNat 4 f }
      pending := none }.arch) ∧
  ∀ (w : Word) (s t : State), runWord w s = .next t →
    t.status.busy = false ∧ t.status.done = true ∧ t.status.ovr = s.status.ovr ∧ t.pending = none ∧
    t.cmd = s.cmd ∧ t.ctrl = s.ctrl ∧
    (t.status.result = .illegal ↔ ∃ e, decodeWord w = .error e) ∧
    (t.status.result = .badParam ↔ ∃ i, decodeWord w = .ok i ∧ ¬ legal i) ∧
    (t.status.result = .unstable → ∃ n, decodeWord w = .ok (.levdur n)) ∧
    (t.status.result ≠ .unstable → t.status.failidx = 0)

/-- The model's own fields under a command (log 1, log 8, log 10): the schedule and the port's answer
stay, and the host has observed the completion exactly where irq rises. -/
def Obligations.CommandsKeepTheSchedule : Prop :=
  ∀ (i : Instr) (s t : State), exec i s = .next t →
    t.schedule = s.schedule ∧ t.answer = s.answer ∧ t.awaiting = (s.awaiting && !s.ctrl.irqEn)

/-- 60_exceptions.md R201: an illegal word completes with ILLEGAL and changes nothing else. -/
def Obligations.IllegalWordChangesOnlyStatus : Prop :=
  ∀ (w : Word) (s : State),
    (w.extractLsb' 20 12 ≠ 0 ∨ 6 ≤ (w.extractLsb' 0 4).toNat) →
    ∃ t, runWord w s = .next t ∧ t.arch = { s with
      status := { busy := false, done := true, ovr := s.status.ovr, result := .illegal, failidx := 0 }
      pending := none }.arch

/-- 60_exceptions.md R202: a legal opcode with an operand out of range completes with BAD_PARAM and
changes nothing else; length 640 succeeds where 641 fails, for each command with a length. -/
def Obligations.BadParamChangesOnlyStatus : Prop :=
  (∀ (i : Instr) (s : State), ¬ legal i → ∃ t, exec i s = .next t ∧ t.arch = { s with
    status := { busy := false, done := true, ovr := s.status.ovr, result := .badParam, failidx := 0 }
    pending := none }.arch) ∧
  (∀ (s : State) (d : Buf), ∃ t, exec (.noise 640 d) s = .next t ∧ t.status.result = .ok) ∧
  (∀ (s : State) (n : Nat) (b : Buf) (x : Nat → Int), n ≤ 12 → holdsSamples s b 640 x →
    ∃ t, exec (.acorr n 640 b) s = .next t ∧ t.status.result = .ok) ∧
  (∀ (s : State) (n : Nat) (b d : Buf) (x : Nat → Int), 1 ≤ n → n ≤ 12 → holdsSamples s b 640 x →
    ∃ t, exec (.synth n 640 b d) s = .next t ∧ t.status.result = .ok) ∧
  (∀ (s : State) (n : Nat) (b d : Buf),
    (∃ t, exec (.noise 641 d) s = .next t ∧ t.status.result = .badParam) ∧
    (∃ t, exec (.acorr n 641 b) s = .next t ∧ t.status.result = .badParam) ∧
    ∃ t, exec (.synth n 641 b d) s = .next t ∧ t.status.result = .badParam)

/-- 70_reset_and_hazards.md R242, 46_control.md R192: a command's result does not depend on the mode
bits CTRL holds when it runs, only on those PENDING holds: another CTRL changes nothing but CTRL itself
(and the model's record of observation). -/
def Obligations.ModeBitsAreSampledAtIssue : Prop :=
  ∀ (i : Instr) (s t : State) (p : Pending) (c : Ctrl), s.pending = some p → exec i s = .next t →
    s.modes = p.modes ∧
    ∃ u, exec i { s with ctrl := c } = .next u ∧ u.arch = { t with ctrl := c }.arch

/-! ### Reset -/

/-- 10_state.md R40: what every register reads after reset, PENDING empty and irq low. -/
def Obligations.ResetRegisterValues : Prop :=
  readRegister State.reset .id = some 0x434E4701 ∧
  readRegister State.reset .ctrl = some 0x00000010 ∧
  State.reset.ctrl = { irqEn := false, k0chk := true, arrnd := false, nidx := false } ∧
  readRegister State.reset .status = some 0x00000000 ∧
  readRegister State.reset .cmd = some 0x00000000 ∧
  readRegister State.reset .seed = some 0x00001E61 ∧
  readRegister State.reset .acscale = some 0x00000000 ∧
  (∀ i, readRegister State.reset (.r i) = some 0) ∧
  (∀ i, readRegister State.reset (.k i) = some 0) ∧
  (∀ i, readRegister State.reset (.a i) = some 0) ∧
  (∀ i, readRegister State.reset (.fshi i) = some 0) ∧
  (∀ i, readRegister State.reset (.fslo i) = some 0) ∧
  (∀ b i, readRegister State.reset (.buf b i) = none) ∧
  (∀ i, readRegister State.reset (.ntab i) = some ((Config.noiseTable i).signExtend 32)) ∧
  State.reset.pending = none ∧ State.reset.irq = false

/-- 70_reset_and_hazards.md R230: the reset input gives every piece of state its reset value, whatever
command is pending. That the input is one event, asserted and released, is the model's choice (log 11),
and so is the schedule, of which the rest is left (log 1). -/
def Obligations.HardResetRestoresResetState : Prop :=
  ∀ (s : State) (rest : List Event), s.schedule = .reset :: rest →
    ∃ t, step s = .next t ∧ t.arch = State.reset.arch ∧ t.irq = false ∧ t.schedule = rest

/-- 70_reset_and_hazards.md R232: a CTRL write with bit 1 set is the hardware reset but that the buffers
keep their contents, whatever the other bits and whatever command is pending. -/
def Obligations.SoftResetKeepsOnlyBuffers : Prop :=
  ∀ (s : State) (v : Word), v[1] = true →
    ∃ t, hostWrite 0x0004 0xF v s = .next t ∧ t.arch = { State.reset with mem := s.mem }.arch ∧
      t.irq = false

/-! ### The window -/

/-- 10_state.md R21: the offset of every register, and no offset selects a register but its own. -/
def Obligations.WindowMapIsTheSpecs : Prop :=
  (registerAt 0x0000 = some .id ∧ registerAt 0x0004 = some .ctrl ∧ registerAt 0x0008 = some .status ∧
    registerAt 0x000C = some .cmd ∧ registerAt 0x0010 = some .seed ∧ registerAt 0x0014 = some .acscale) ∧
  (∀ i : Fin 13, registerAt (0x0100 + 4 * i) = some (.r i)) ∧
  (∀ i : Fin 12, registerAt (0x0140 + 4 * i) = some (.k i)) ∧
  (∀ i : Fin 13, registerAt (0x0180 + 4 * i) = some (.a i)) ∧
  (∀ i : Fin 12, registerAt (0x01C0 + 4 * i) = some (.fshi i)) ∧
  (∀ i : Fin 12, registerAt (0x0200 + 4 * i) = some (.fslo i)) ∧
  (∀ i : Fin 640, registerAt (0x1000 + 4 * i) = some (.buf .b0 i)) ∧
  (∀ i : Fin 640, registerAt (0x2000 + 4 * i) = some (.buf .b1 i)) ∧
  (∀ i : Fin 512, registerAt (0x3000 + 4 * i) = some (.ntab i)) ∧
  ∀ (x : Nat) (reg : Register), registerAt x = some reg ↔ x = reg.offset

/-! ### The register port -/

/-- 10_state.md R24: what a CTRL write stores and what a CTRL read returns, bit by bit. -/
def Obligations.CtrlWriteStoresModeBits : Prop :=
  (∀ (s : State) (v : Word), ∃ t, hostWrite 0x0004 0xF v s = .next t ∧
    (v[1] = false → t.arch = { s with ctrl :=
      { irqEn := v[0], k0chk := v[4], arrnd := v[5], nidx := v[6] } }.arch) ∧
    (v[1] = true → t.arch = { State.reset with mem := s.mem }.arch ∧
      readRegister t .ctrl = some 0x00000010)) ∧
  (∀ s : State, ∃ w, readRegister s .ctrl = some w ∧ ∀ n, w.getLsbD n =
    if n = 0 then s.ctrl.irqEn else if n = 4 then s.ctrl.k0chk else if n = 5 then s.ctrl.arrnd
    else if n = 6 then s.ctrl.nidx else false)

/-- 10_state.md R26: a STATUS write clears DONE and OVR by writing 1 and changes nothing else. -/
def Obligations.StatusWriteClearsFlags : Prop :=
  ∀ (s : State) (v : Word), ∃ t, hostWrite 0x0008 0xF v s = .next t ∧ t.arch = { s with status :=
    { s.status with
      done := if v[1] then false else s.status.done
      ovr := if v[2] then false else s.status.ovr } }.arch

/-- 10_state.md R25: what a read of STATUS answers, at any time; the numbers of the result codes are those
of 60_exceptions.md R200. -/
def Obligations.StatusReadFields : Prop :=
  ∀ s : State, ∃ w, s.readsAs 0x0008 w ∧
    w[0] = s.status.busy ∧ w[1] = s.status.done ∧ w[2] = s.status.ovr ∧ w[3] = false ∧
    (s.status.result = .ok → w.extractLsb' 4 4 = 0) ∧
    (s.status.result = .unstable → w.extractLsb' 4 4 = 1) ∧
    (s.status.result = .illegal → w.extractLsb' 4 4 = 2) ∧
    (s.status.result = .badParam → w.extractLsb' 4 4 = 3) ∧
    w.extractLsb' 8 4 = s.status.failidx ∧ w.extractLsb' 12 20 = 0

/-- 10_state.md R28: a SEED write stores bits 30:0, and a read returns them below a zero bit 31. -/
def Obligations.SeedHoldsThirtyOneBits : Prop :=
  (∀ (s : State) (v : Word), s.status.busy = false → s.awaiting = false →
    ∃ t, hostWrite 0x0010 0xF v s = .next t ∧ t.arch = { s with seed := v.extractLsb' 0 31 }.arch) ∧
  (∀ s : State, ∃ w, readRegister s .seed = some w ∧ w.extractLsb' 0 31 = s.seed ∧ w[31] = false)

/-- 10_state.md R36: an int16 element at its offset of R21 reads as itself, sign-extended; a write to it
stores bits 15:0 of the word there and changes nothing else, and a read then answers them sign-extended.
NTAB, which nothing writes, may be read at any time. -/
def Obligations.ElementWriteThenRead : Prop :=
  ∀ s : State,
    (∀ i : Fin 512, s.readsAs (0x3000 + 4 * i) ((Config.noiseTable i).signExtend 32)) ∧
    (s.status.busy = false → s.awaiting = false → ∀ v : Word,
      let e := v.extractLsb' 0 16
      (∀ i : Fin 12, s.readsAs (0x0140 + 4 * i) (s.k[i].signExtend 32) ∧
        s.storesAs (0x0140 + 4 * i) v { s with k := s.k.set i e } (e.signExtend 32)) ∧
      (∀ i : Fin 13, s.readsAs (0x0180 + 4 * i) (s.a[i].signExtend 32) ∧
        s.storesAs (0x0180 + 4 * i) v { s with a := s.a.set i e } (e.signExtend 32)) ∧
      (∀ i : Fin 12, s.readsAs (0x01C0 + 4 * i) (s.fshi[i].signExtend 32) ∧
        s.storesAs (0x01C0 + 4 * i) v { s with fshi := s.fshi.set i e } (e.signExtend 32)) ∧
      (∀ i : Fin 12, s.readsAs (0x0200 + 4 * i) (s.fslo[i].signExtend 32) ∧
        s.storesAs (0x0200 + 4 * i) v { s with fslo := s.fslo.set i e } (e.signExtend 32)) ∧
      ∀ i : Fin 640,
        (∀ h : Half, readSample s.mem .b0 i = some h → s.readsAs (0x1000 + 4 * i) (h.signExtend 32)) ∧
        (∀ h : Half, readSample s.mem .b1 i = some h → s.readsAs (0x2000 + 4 * i) (h.signExtend 32)) ∧
        (∃ m : Memory, s.storesAs (0x1000 + 4 * i) v { s with mem := m } (e.signExtend 32) ∧
          readSample m .b0 i = some e ∧
          ∀ x : Nat, x ≠ 0x1000 + 4 * i → x ≠ 0x1000 + 4 * i + 1 → readByte m x = readByte s.mem x) ∧
        ∃ m : Memory, s.storesAs (0x2000 + 4 * i) v { s with mem := m } (e.signExtend 32) ∧
          readSample m .b1 i = some e ∧
          ∀ x : Nat, x ≠ 0x2000 + 4 * i → x ≠ 0x2000 + 4 * i + 1 → readByte m x = readByte s.mem x)

/-- 10_state.md R22, R29, R30, in every state: ID reads as its constant at any time; with no command
running or unobserved, ACSCALE reads as its 4 bits below zeros, and an entry of R as its 32 bits, all of
which a write to it stores, changing nothing else. -/
def Obligations.PlainRegistersReadTheirState : Prop :=
  ∀ s : State,
    s.readsAs 0x0000 0x434E4701 ∧
    (s.status.busy = false → s.awaiting = false →
      (∃ w, s.readsAs 0x0014 w ∧ w.extractLsb' 0 4 = s.acscale ∧ w.extractLsb' 4 28 = 0) ∧
      ∀ i : Fin 13, s.readsAs (0x0100 + 4 * i) s.r[i] ∧
        ∀ v : Word, s.storesAs (0x0100 + 4 * i) v { s with r := s.r.set i v } v)

/-- 10_state.md R22, R29, R35, R61: a write to ID or NTAB completes and changes nothing, at any time; so
does a write to ACSCALE with no command running or unobserved (R240). -/
def Obligations.ReadOnlyRegistersIgnoreWrites : Prop :=
  ∀ (s : State) (reg : Register) (v : Word),
    (reg = .id ∨ (∃ i, reg = .ntab i) ∨ (reg = .acscale ∧ s.status.busy = false ∧ s.awaiting = false)) →
    ∃ t, hostWrite (BitVec.ofNat 16 reg.offset) 0xF v s = .next t ∧ t.answer = .ok ∧ t.arch = s.arch

/-- 20_memory.md R60: a read of a valid offset answers the register's value and changes no state of the
engine: of ID, CTRL, STATUS, CMD and NTAB at any time, of every other register with no command running or
unobserved (70_reset_and_hazards.md R240). No read changes any state of the engine. -/
def Obligations.ReadsHaveNoSideEffect : Prop :=
  (∀ (s : State) (reg : Register) (w : Word),
    (reg = .id ∨ reg = .ctrl ∨ reg = .status ∨ reg = .cmd ∨ (∃ i, reg = .ntab i)) ∨
      (s.status.busy = false ∧ s.awaiting = false) →
    readRegister s reg = some w → s.readsAs reg.offset w) ∧
  (∀ (x : BitVec 16) (l : BitVec 4) (s t : State), hostRead x l s = .next t → t.arch = s.arch)

/-- 10_state.md R41, 20_memory.md R63, 60_exceptions.md R209: a transaction is a bus error exactly where
it is narrow, misaligned or at a reserved offset. -/
def Obligations.BusErrorExactly : Prop :=
  ∀ (x : BitVec 16) (l : BitVec 4) (v : Word) (s : State),
    (hostRead x l s = .fault .busError ↔ l ≠ 0xF ∨ x.toNat % 4 ≠ 0 ∨ reservedOffset x.toNat) ∧
    (hostWrite x l v s = .fault .busError ↔ l ≠ 0xF ∨ x.toNat % 4 ≠ 0 ∨ reservedOffset x.toNat)

/-- 70_reset_and_hazards.md R240 (the interval: log 8): while a command runs or is not yet seen to
complete, a host access to SEED, ACSCALE, R, K, A, FSHI, FSLO or a buffer is a fault of the host, and an
access to ID, CTRL, STATUS, CMD or NTAB is not. -/
def Obligations.GuardedAccessFaults : Prop :=
  ∀ (s : State) (reg : Register) (v : Word), s.status.busy = true ∨ s.awaiting = true →
    ((reg = .id ∨ reg = .ctrl ∨ reg = .status ∨ reg = .cmd ∨ ∃ i, reg = .ntab i) →
      (∃ t, hostRead (BitVec.ofNat 16 reg.offset) 0xF s = .next t) ∧
      (∃ t, hostWrite (BitVec.ofNat 16 reg.offset) 0xF v s = .next t)) ∧
    (¬ (reg = .id ∨ reg = .ctrl ∨ reg = .status ∨ reg = .cmd ∨ ∃ i, reg = .ntab i) →
      hostRead (BitVec.ofNat 16 reg.offset) 0xF s = .fault .guardedAccess ∧
      hostWrite (BitVec.ofNat 16 reg.offset) 0xF v s = .fault .guardedAccess)

/-- 46_control.md R193 (the model's record of it: log 8): once a command is issued, a step leaves its
completion unobserved unless it is a STATUS read with BUSY = 0, raises irq, or resets the engine. -/
def Obligations.OnlyObservationEndsTheGuard : Prop :=
  ∀ s t : State, s.awaiting = true → step s = .next t →
    t.awaiting = true ∨
    (s.status.busy = false ∧ ∃ rest, s.schedule = .read 0x0008 0xF :: rest) ∨
    t.irq = true ∨
    (∃ rest, s.schedule = .reset :: rest) ∨
    (∃ v rest, v[1] = true ∧ s.schedule = .write 0x0004 0xF v :: rest)

/-- 46_control.md R193 (the model's record of it: log 8): a STATUS read with BUSY = 0 ends the guarded
interval, and so do a rise of irq, the reset input and a soft reset. -/
def Obligations.ObservationDoesEndTheGuard : Prop :=
  ∀ s : State,
    (∀ rest, s.schedule = .read 0x0008 0xF :: rest → s.status.busy = false →
      ∃ t, step s = .next t ∧ t.status.busy = false ∧ t.awaiting = false) ∧
    (∀ t, step s = .next t → s.irq = false → t.irq = true → t.awaiting = false) ∧
    (∀ rest, s.schedule = .reset :: rest → ∃ t, step s = .next t ∧ t.awaiting = false) ∧
    (∀ (v : Word) (rest : List Event), v[1] = true → s.schedule = .write 0x0004 0xF v :: rest →
      ∃ t, step s = .next t ∧ t.awaiting = false)

/-- 70_reset_and_hazards.md R245: ACORR and SYNTH with an unwritten input sample, and a host read of an
unwritten entry, fault; NOISE, which reads no buffer, does not, nor does a NOP, LEVDUR or K2A. -/
def Obligations.UnwrittenBufferFaults : Prop :=
  ∀ s : State,
    (∀ n l b, legal (.acorr n l b) →
      (exec (.acorr n l b) s = .fault .unwrittenBuffer ↔ ∃ j, j < l ∧ readSample s.mem b j = none)) ∧
    (∀ n l b d, legal (.synth n l b d) →
      (exec (.synth n l b d) s = .fault .unwrittenBuffer ↔ ∃ j, j < l ∧ readSample s.mem b j = none)) ∧
    (∀ (b : Buf) (i : Fin 640), s.status.busy = false → s.awaiting = false → readSample s.mem b i = none →
      hostRead (BitVec.ofNat 16 (sampleAddr b i)) 0xF s = .fault .unwrittenBuffer) ∧
    (∀ i, (∀ n l b, i ≠ .acorr n l b) → (∀ n l b d, i ≠ .synth n l b d) → ∃ t, exec i s = .next t)

/-- 60_exceptions.md R205: irq is IRQ_EN AND DONE; it falls at a W1C write of DONE, at the issue of the
next command, at a clear of IRQ_EN and at a reset, and a completion with IRQ_EN = 1 raises it. -/
def Obligations.IrqIsEnableAndDone : Prop :=
  ∀ s : State,
    (s.irq = true ↔ s.ctrl.irqEn = true ∧ s.status.done = true) ∧
    (∀ v : Word, v[1] = true → ∃ t, hostWrite 0x0008 0xF v s = .next t ∧ t.irq = false) ∧
    (∀ w : Word, s.status.busy = false → ∃ t, hostWrite 0x000C 0xF w s = .next t ∧ t.irq = false) ∧
    (∀ v : Word, v[0] = false ∨ v[1] = true →
      ∃ t, hostWrite 0x0004 0xF v s = .next t ∧ t.irq = false) ∧
    (∀ rest, s.schedule = .reset :: rest → ∃ t, step s = .next t ∧ t.irq = false) ∧
    (∀ (w : Word) (t : State), runWord w s = .next t → t.irq = s.ctrl.irqEn)

/-! ### The commands -/

/-- 46_control.md R190: a word with OP = 0 and RSV = 0 runs NOP, which completes with OK and touches nothing
else; from reset, it leaves STATUS = 0x00000002 and CMD = 0. -/
def Obligations.NopCompletesWithOk : Prop :=
  (∀ s : State, ∃ t, exec .nop s = .next t ∧ t.arch = { s with
    status := { busy := false, done := true, ovr := s.status.ovr, result := .ok, failidx := 0 }
    pending := none }.arch) ∧
  (∀ (w : Word) (s : State), w.extractLsb' 20 12 = 0 → w.extractLsb' 0 4 = 0 →
    runWord w s = exec .nop s) ∧
  (∀ t, exec .nop (issue 0 State.reset) = .next t →
    readRegister t .status = some 0x00000002 ∧ readRegister t .cmd = some 0)

/-- 41_autocorrelation.md R122: ACORR with legal operands and written input samples completes with OK,
R[i] the sum of the scaled products, each shifted before it is added, with the zero-lag clamp, ACSCALE
the scale of R121; R[N+1..12] and everything else is unchanged. The sum is the exact one: no partial sum
leaves int32 (R123). Operands out of range complete with BAD_PARAM. The last clause is its encoding. -/
def Obligations.AcorrComputesScaledAutocorrelation : Prop :=
  ∀ (s : State) (n l : Nat) (b : Buf) (x : Nat → Int),
    (n ≤ 12 ∧ n ≤ l ∧ 1 ≤ l ∧ l ≤ 640 → holdsSamples s b l x →
      let sc := acScale ((List.range l).map x)
      let lag := fun i => ∑ j ∈ Finset.range (l - i), asr (x j * x (i + j)) sc
      ∃ t, exec (.acorr n l b) s = .next t ∧
        (∀ (i : Nat) (h : i < 13), t.r[i] =
          if i = 0 then BitVec.ofInt 32 (if lag 0 = 0 then 32767 else lag 0)
          else if i ≤ n then BitVec.ofInt 32 (lag i) else s.r[i]) ∧
        (∀ i m, i ≤ n → m ≤ l - i →
          -2147483648 ≤ ∑ j ∈ Finset.range m, asr (x j * x (i + j)) sc ∧
          ∑ j ∈ Finset.range m, asr (x j * x (i + j)) sc < 2147483648) ∧
        t.acscale.toNat = sc ∧
        t.arch = (complete .ok 0 { s with r := t.r, acscale := t.acscale }).arch) ∧
    (¬ (n ≤ 12 ∧ n ≤ l ∧ 1 ≤ l ∧ l ≤ 640) →
      exec (.acorr n l b) s = .next (complete .badParam 0 s)) ∧
    (n < 16 → l < 1024 →
      runWord (BitVec.ofNat 32 (0x1 + n * 2 ^ 4 + l * 2 ^ 8 + bitOfBuf b * 2 ^ 18)) s = exec (.acorr n l b) s)

/-- 41_autocorrelation.md R121, R29: the scale of a frame of 1 to 640 int16 samples is 0 for an all-zero
frame, else nbits - t where that is positive and 0 where it is not; it is at most 9. -/
def Obligations.AcorrScaleFormula : Prop :=
  ∀ xs : List Int, 1 ≤ xs.length → xs.length ≤ 640 → (∀ v ∈ xs, -32768 ≤ v ∧ v ≤ 32767) →
    acScale xs ≤ 9 ∧
    ((∀ v ∈ xs, v = 0) → acScale xs = 0) ∧
    ((∃ v ∈ xs, v ≠ 0) →
      acScale xs = sizeInBits xs.length - normW32 (maxAbs16 xs * maxAbs16 xs) ∧
      1 ≤ normW32 (maxAbs16 xs * maxAbs16 xs))

/-- 41_autocorrelation.md R124: R[0] after a legal ACORR is at least 1, and it is the clamp exactly where
the unclamped sum is 0, which is exactly where all samples are 0. -/
def Obligations.AcorrZeroLagIsPositive : Prop :=
  ∀ (s t : State) (n l : Nat) (b : Buf) (x : Nat → Int), legal (.acorr n l b) → holdsSamples s b l x →
    exec (.acorr n l b) s = .next t →
    1 ≤ t.r[0].toInt ∧
    ((∑ j ∈ Finset.range l, asr (x j * x j) (acScale ((List.range l).map x))) = 0 ↔
      ∀ j, j < l → x j = 0) ∧
    ((∀ j, j < l → x j = 0) → t.r[0].toInt = 32767)

/-- 42_levinson.md R133, with R136 to R138: LEVDUR agrees with the pseudocode over indexed arrays. If no
coefficient fails the check it completes with OK, K[0..N-1] and A[0..N] written and nothing else; if f
is the first that fails, it completes with UNSTABLE and FAILIDX = f, K[0..f] written and nothing else.
An order out of range completes with BAD_PARAM. The last clause is its encoding. -/
def Obligations.LevdurFollowsThePseudocode : Prop :=
  ∀ (s : State) (n : Nat),
    (1 ≤ n ∧ n ≤ 12 →
      ((∀ f, f < n → ¬ pcFails s f) →
        ∃ t, exec (.levdur n) s = .next t ∧
          (∀ (i : Nat) (h : i < 12), t.k[i] = if i < n then toHalf (pcK s i) else s.k[i]) ∧
          (∀ (i : Nat) (h : i < 13), t.a[i] =
            if i = 0 then 4096 else if i ≤ n then toHalf (pcA s n i) else s.a[i]) ∧
          t.arch = (complete .ok 0 { s with k := t.k, a := t.a }).arch) ∧
      (∀ f, f < n → pcFails s f → (∀ g, g < f → ¬ pcFails s g) →
        ∃ t, exec (.levdur n) s = .next t ∧
          (∀ (i : Nat) (h : i < 12), t.k[i] = if i ≤ f then toHalf (pcK s i) else s.k[i]) ∧
          t.status.failidx.toNat = f ∧
          t.arch = (complete .unstable f { s with k := t.k }).arch)) ∧
    (¬ (1 ≤ n ∧ n ≤ 12) → exec (.levdur n) s = .next (complete .badParam 0 s)) ∧
    (n < 16 → runWord (BitVec.ofNat 32 (0x2 + n * 2 ^ 4)) s = exec (.levdur n) s)

/-- 42_levinson.md R136, R138 (the property X1 of 95_test_vectors.md): with K0CHK = 1 a legal LEVDUR
either completes OK with every written K of magnitude at most 32750, or UNSTABLE with K[FAILIDX] above
it and every earlier one within it; it never answers anything else. -/
def Obligations.LevdurNeverHidesInstability : Prop :=
  ∀ (s : State) (n : Nat), 1 ≤ n → n ≤ 12 → s.modes.k0chk = true →
    ∃ t, exec (.levdur n) s = .next t ∧
      ((t.status.result = .ok ∧ ∀ (i : Nat) (h : i < 12), i < n → t.k[i].toInt.natAbs ≤ 32750) ∨
       (t.status.result = .unstable ∧ t.a = s.a ∧
        ∃ f : Nat, ∃ h : f < 12, f < n ∧ t.status.failidx.toNat = f ∧ 32750 < t.k[f].toInt.natAbs ∧
          (∀ (i : Nat) (h' : i < 12), i < f → t.k[i].toInt.natAbs ≤ 32750) ∧
          (∀ (i : Nat) (h' : i < 12), f < i → t.k[i] = s.k[i])))

/-- 43_k2a.md R151: K2A agrees with the pseudocode over indexed arrays: A[0..N] written, A[N+1..12], K and
everything else unchanged, RESULT OK; an order out of range completes with BAD_PARAM. The last clause is its encoding. -/
def Obligations.K2aFollowsThePseudocode : Prop :=
  ∀ (s : State) (n : Nat),
    (1 ≤ n ∧ n ≤ 12 → ∃ t, exec (.k2a n) s = .next t ∧
      (∀ (i : Nat) (h : i < 13), t.a[i] =
        if i ≤ n then toHalf (pcPoly (fun j => (s.k[j]?.getD 0).toInt) n i) else s.a[i]) ∧
      t.arch = (complete .ok 0 { s with a := t.a }).arch) ∧
    (¬ (1 ≤ n ∧ n ≤ 12) → exec (.k2a n) s = .next (complete .badParam 0 s)) ∧
    (n < 16 → runWord (BitVec.ofNat 32 (0x3 + n * 2 ^ 4)) s = exec (.k2a n) s)

/-- 43_k2a.md R153: zero coefficients leave the lower-order polynomial unchanged: with K[m..N-1] = 0, the
order N gives the A[0..m] of order m, and zeros above it. -/
def Obligations.K2aZeroPaddingIsHarmless : Prop :=
  ∀ (s t u : State) (m n : Nat), 1 ≤ m → m ≤ n → n ≤ 12 →
    (∀ (j : Nat) (h : j < 12), m ≤ j → j < n → s.k[j] = 0) →
    exec (.k2a m) s = .next t → exec (.k2a n) s = .next u →
    ∀ (i : Nat) (h : i < 13), (i ≤ m → u.a[i] = t.a[i]) ∧ (m < i → i ≤ n → u.a[i] = 0)

/-- 44_noise.md R162, R161: NOISE draws L updates of the seed; entry i of the buffer is the table value
the update i + 1 indexes, SEED is the last update; every other byte of the buffers and everything else
is unchanged, RESULT OK. A length out of range completes with BAD_PARAM. The last clause is its encoding. -/
def Obligations.NoiseDrawsFromTheTable : Prop :=
  ∀ (s : State) (l : Nat) (d : Buf),
    (1 ≤ l ∧ l ≤ 640 → ∃ (t : State) (u : Nat → Nat), exec (.noise l d) s = .next t ∧
      u 0 = s.seed.toNat ∧ (∀ i, u (i + 1) = (u i * 69069 + 1) % 2 ^ 31) ∧
      t.seed.toNat = u l ∧
      (∀ i, i < l → ∃ h : u (i + 1) / 2 ^ (if s.modes.nidx then 22 else 23) < 512,
        readSample t.mem d i =
          some (Config.noiseTable ⟨u (i + 1) / 2 ^ (if s.modes.nidx then 22 else 23), h⟩)) ∧
      (∀ x, outsideSamples d l x → readByte t.mem x = readByte s.mem x) ∧
      t.arch = (complete .ok 0 { s with mem := t.mem, seed := t.seed }).arch) ∧
    (¬ (1 ≤ l ∧ l ≤ 640) → exec (.noise l d) s = .next (complete .badParam 0 s)) ∧
    (l < 1024 →
      runWord (BitVec.ofNat 32 (0x4 + l * 2 ^ 8 + bitOfBuf d * 2 ^ 19)) s = exec (.noise l d) s)

/-- 44_noise.md R163: a NOISE of length L1 then one of length L2 leave the SEED, and draw the samples in
order, of one NOISE of length L1 + L2. -/
def Obligations.NoiseSplits : Prop :=
  ∀ (s t u v : State) (m n : Nat) (d : Buf) (p : Pending), 1 ≤ m → 1 ≤ n → m + n ≤ 640 →
    exec (.noise m d) s = .next t → s.modes = p.modes →
    exec (.noise n d) { t with pending := some p } = .next u → exec (.noise (m + n) d) s = .next v →
    v.seed = u.seed ∧
    (∀ i, i < m → readSample v.mem d i = readSample t.mem d i) ∧
    (∀ i, i < n → readSample v.mem d (m + i) = readSample u.mem d i)

/-- 45_synthesis.md R172 to R175: SYNTH with legal operands and written input samples completes with OK.
Its outputs y and their residuals ylo satisfy the recurrence, whose history before the first output is
FSHI and FSLO; they are the buffer's entries, and FSHI and FSLO end as the last 12 of history and
outputs; every other byte of the buffers and everything else is unchanged. SRC may equal DST. Operands
out of range complete with BAD_PARAM. The last clause is its encoding. -/
def Obligations.SynthFiltersTheSamples : Prop :=
  ∀ (s : State) (n l : Nat) (b d : Buf) (x : Nat → Int),
    (1 ≤ n ∧ n ≤ 12 ∧ 1 ≤ l ∧ l ≤ 640 → holdsSamples s b l x →
      let A := fun j : Nat => (s.a[j]?.getD 0).toInt
      let rnd : Int := if s.modes.arrnd then 2048 else 0
      ∃ (t : State) (y ylo : Int → Int), exec (.synth n l b d) s = .next t ∧
        (∀ (k : Nat) (h : k < 12), y ((k : Int) - 12) = s.fshi[k].toInt ∧ ylo ((k : Int) - 12) = s.fslo[k].toInt) ∧
        (∀ i : Nat, i < l →
          let oLOW := wrap32 (- ∑ j ∈ Finset.Icc 1 n, A j * ylo ((i : Int) - j))
          let o := wrap32 (x i * 4096 - (∑ j ∈ Finset.Icc 1 n, A j * y ((i : Int) - j)) + asr oLOW 12)
          y i = trunc16 (asr (wrap32 (o + rnd)) 12) ∧ ylo i = trunc16 (o - y i * 4096)) ∧
        (∀ i : Nat, i < l → readSample t.mem d i = some (toHalf (y i))) ∧
        (∀ (k : Nat) (h : k < 12), t.fshi[k] = toHalf (y ((l : Int) - 12 + k)) ∧
          t.fslo[k] = toHalf (ylo ((l : Int) - 12 + k))) ∧
        (∀ z, outsideSamples d l z → readByte t.mem z = readByte s.mem z) ∧
        t.arch = (complete .ok 0 { s with mem := t.mem, fshi := t.fshi, fslo := t.fslo }).arch) ∧
    (¬ (1 ≤ n ∧ n ≤ 12 ∧ 1 ≤ l ∧ l ≤ 640) →
      exec (.synth n l b d) s = .next (complete .badParam 0 s)) ∧
    (n < 16 → l < 1024 →
      runWord (BitVec.ofNat 32 (0x5 + n * 2 ^ 4 + l * 2 ^ 8 + bitOfBuf b * 2 ^ 18 + bitOfBuf d * 2 ^ 19)) s =
        exec (.synth n l b d) s)

/-- 45_synthesis.md R171, R176(g): A[0] and A[N+1..12] are not read: other values there change nothing of
the result but A itself. -/
def Obligations.SynthReadsOnlyItsCoefficients : Prop :=
  ∀ (s t : State) (a' : Vector Half 13) (n l : Nat) (b d : Buf),
    (∀ (j : Nat) (h : j < 13), 1 ≤ j → j ≤ n → a'[j] = s.a[j]) →
    exec (.synth n l b d) s = .next t →
    exec (.synth n l b d) { s with a := a' } = .next { t with a := a' }

/-- 45_synthesis.md R177(a): an order N gives the outputs and the end state of order 12 where A[N+1..12]
are 0. -/
def Obligations.SynthZeroPaddingIsHarmless : Prop :=
  ∀ (s : State) (n l : Nat) (b d : Buf), 1 ≤ n → n ≤ 12 →
    (∀ (j : Nat) (h : j < 13), n < j → s.a[j] = 0) →
    exec (.synth n l b d) s = exec (.synth 12 l b d) s

/-- 45_synthesis.md R177(b): filtering a frame in two commands gives the outputs and the filter state of
one command: the state after the first is exactly the history the second needs. -/
def Obligations.SynthSplits : Prop :=
  ∀ (s : State) (n : Nat) (xs zs : List Int) (d : Buf),
    let first := synthOutputs n xs s
    let mid := synthWrites d first s
    let whole := synthOutputs n (xs ++ zs) s
    whole = first ++ synthOutputs n zs mid ∧
    (synthWrites d whole s).fshi = (synthWrites d (synthOutputs n zs mid) mid).fshi ∧
    (synthWrites d whole s).fslo = (synthWrites d (synthOutputs n zs mid) mid).fslo

/-- 45_synthesis.md R178: an accumulator off by a multiple of 2^32 gives the same output sample and the
same residual. -/
def Obligations.SynthAccumulatorWidthIsIrrelevant : Prop :=
  ∀ (rnd o m : Int), filterOutput rnd (o + m * 2 ^ 32) = filterOutput rnd o ∧
    filterResidual rnd (o + m * 2 ^ 32) = filterResidual rnd o

/-! ### The primitives -/

/-- 40_primitives.md R102: division toward zero, wrapped only for -2^31 / -1, and saturated for a zero
divisor. -/
def Obligations.DivisionTruncatesTowardZero : Prop :=
  ∀ num den : Int, -2147483648 ≤ num → num ≤ 2147483647 → -32768 ≤ den → den ≤ 32767 →
    (den = 0 → divW32W16 num den = 0x7FFFFFFF) ∧
    (num = -2147483648 → den = -1 → divW32W16 num den = -2147483648) ∧
    (den ≠ 0 → ¬ (num = -2147483648 ∧ den = -1) →
      (divW32W16 num den * den).natAbs ≤ num.natAbs ∧
      (num - divW32W16 num den * den).natAbs < den.natAbs ∧
      0 ≤ num * (num - divW32W16 num den * den))

/-- 40_primitives.md R107: the hi/low division is its pseudocode on every input, with the estimate -1 for a
zero high half, and its three examples. -/
def Obligations.DivHiLoFollowsThePseudocode : Prop :=
  (∀ num hi lo : Int, divHiLo num { hi := hi, lo := lo } = pcDivHiLo num hi lo) ∧
  recipEstimate 0 = -1 ∧
  divHiLo 0x20000000 { hi := 16384, lo := 0 } = 1073741816 ∧
  divHiLo 0x40000000 { hi := 32767, lo := 32767 } = 1073741824 ∧
  divHiLo 0x3FFFFFFF { hi := 32767, lo := 32767 } = 1073741816

/-- 00_scope.md R11: wrap32 and trunc16 are the int32 and the int16 congruent to a value, asr is the floor of
a quotient by a power of two, shl32 and abs32 wrap the exact value. -/
def Obligations.NarrowingsAreTheSpecs : Prop :=
  ∀ (v : Int) (n : Nat),
    (-2147483648 ≤ wrap32 v ∧ wrap32 v ≤ 2147483647 ∧ (2 ^ 32 : Int) ∣ wrap32 v - v) ∧
    (-32768 ≤ trunc16 v ∧ trunc16 v ≤ 32767 ∧ (2 ^ 16 : Int) ∣ trunc16 v - v) ∧
    (asr v n * 2 ^ n ≤ v ∧ v < (asr v n + 1) * 2 ^ n) ∧
    (-2147483648 ≤ shl32 v n ∧ shl32 v n ≤ 2147483647 ∧ (2 ^ 32 : Int) ∣ shl32 v n - v * 2 ^ n) ∧
    (0 ≤ v → abs32 v = v) ∧
    (v < 0 → -2147483648 ≤ abs32 v ∧ abs32 v ≤ 2147483647 ∧ (2 ^ 32 : Int) ∣ abs32 v + v)

/-- 40_primitives.md R103: normW32 is 0 for 0 and else the largest shift that keeps an int32's sign and
value, in 0..31. -/
def Obligations.NormIsTheLargestShift : Prop :=
  normW32 0 = 0 ∧
  ∀ x : Int, -2147483648 ≤ x → x ≤ 2147483647 → x ≠ 0 →
    normW32 x ≤ 31 ∧ shl32 x (normW32 x) = x * 2 ^ normW32 x ∧
    ∀ m, normW32 x < m → shl32 x m ≠ x * 2 ^ m

/-- 40_primitives.md R104: sizeInBits is the number of bits needed to write n. -/
def Obligations.SizeInBitsIsTheBitLength : Prop :=
  ∀ n : Nat, n < 2 ^ sizeInBits n ∧ (n ≠ 0 → 2 ^ (sizeInBits n - 1) ≤ n) ∧ (n = 0 → sizeInBits n = 0)

/-- 40_primitives.md R105: the largest magnitude of a non-empty list, clamped to 32767. -/
def Obligations.MaxAbsIsTheClampedMaximum : Prop :=
  ∀ xs : List Int, xs ≠ [] →
    (∀ v ∈ xs, min 32767 (v.natAbs : Int) ≤ maxAbs16 xs) ∧
    (∃ v ∈ xs, maxAbs16 xs = min 32767 (v.natAbs : Int))

/-- 40_primitives.md R106: the halves of an int32 are its bits 31:16 and 15:1, and joined they give it
back with bit 0 cleared; join is h*65536 + l*2 wrapped to int32. -/
def Obligations.SplitKeepsAllButBitZero : Prop :=
  (∀ x : Int, -2147483648 ≤ x → x ≤ 2147483647 →
    hi16 x = x / 65536 ∧ lo16 x = x % 65536 / 2 ∧ 0 ≤ lo16 x ∧ lo16 x ≤ 32767 ∧
    join (hi16 x) (lo16 x) = x - x % 2) ∧
  ∀ h l : Int, -2147483648 ≤ join h l ∧ join h l ≤ 2147483647 ∧
    (join h l - (h * 65536 + l * 2)) % 2 ^ 32 = 0

/-! ### The whole machine -/

/-- The state after reset satisfies the invariant. -/
def Obligations.ResetSatisfiesTheInvariant : Prop := State.reset.Inv

/-- Every step keeps the invariant, from every state that has it: the memory's canonical form, BUSY
exactly while a command is pending (R37), DONE, RESULT and FAILIDX as R25 and R191 say, ACSCALE at most
9 (R29), and the host's observation (R193). -/
def Obligations.StepKeepsTheInvariant : Prop :=
  ∀ s t : State, s.Inv → step s = .next t → t.Inv

/-- 46_control.md R192: a run that exhausts the schedule leaves no command pending. From a state with the
invariant, if a run of every event of the schedule and one step more ends in a next state, then nothing
is pending there: each command issued has completed or a reset has abandoned it. That the engine acts
where no event is left is the model's choice (log 1). -/
def Obligations.ExhaustedScheduleLeavesNothingPending : Prop :=
  ∀ s t : State, s.Inv → Host.Core.run Sys2Proof.core (s.schedule.length + 1) s = .next t →
    t.status.busy = false ∧ t.pending = none ∧ t.schedule = []

/-- 70_reset_and_hazards.md R233, R245: one step keeps the relation "the same state, with more buffer bytes
known": what unwritten entries hold changes nothing of a step that gives a next state. -/
def Obligations.StepKeepsExtendedMemory : Prop :=
  ∀ (s t : State) (m : Memory), s.mem.extendedBy m → step s = .next t →
    ∃ m', step { s with mem := m } = .next { t with mem := m' } ∧ t.mem.extendedBy m'

/-- 70_reset_and_hazards.md R233, R245: what buffers hold where nothing has been written never matters.
If a run ends in a next state, then a run from the same state with more bytes known ends in the same
state, with more bytes known. -/
def Obligations.UnwrittenEntriesNeverMatter : Prop :=
  ∀ (k : Nat) (s t : State) (m : Memory), s.mem.extendedBy m →
    Host.Core.run Sys2Proof.core k s = .next t →
    ∃ m', Host.Core.run Sys2Proof.core k { s with mem := m } = .next { t with mem := m' } ∧
      t.mem.extendedBy m'

/-- 70_reset_and_hazards.md R233: after a soft reset nothing of the engine's earlier state but the buffers
can be seen: two machines with the same buffers and the same events to come run alike from the write
on. -/
def Obligations.SoftResetForgetsEverythingElse : Prop :=
  ∀ (k : Nat) (s t : State) (v : Word) (rest : List Event), v[1] = true → s.mem = t.mem →
    s.schedule = .write 0x0004 0xF v :: rest → t.schedule = .write 0x0004 0xF v :: rest →
    Host.Core.run Sys2Proof.core (k + 1) s = Host.Core.run Sys2Proof.core (k + 1) t

/-- The memory's canonical form is one form: two memories that have it and read alike at every offset are
the same list. -/
def Obligations.CanonicalFormIsUnique : Prop :=
  ∀ m n : Memory, m.wf → n.wf → (∀ x, readByte m x = readByte n x) → m = n

/-- 20_memory.md R65: writing the same value twice does what writing it once does, at every register but
CMD. R65 sets CTRL with bit 1 set apart too, since each such write performs a soft reset; that two of them
leave the state of one follows from 70_reset_and_hazards.md R232. -/
def Obligations.WritesAreIdempotent : Prop :=
  ∀ (s : State) (reg : Register) (v : Word), s.mem.wf → reg ≠ .cmd →
    writeRegister v (writeRegister v s reg) reg = writeRegister v s reg
end

