-- ==== Sys2Proof/Laws/Arith.lean ====
section
/-! SUPPORT. The ranges of the narrowings and what an element keeps of them. -/

namespace Sys2Proof.Machine

/-- wrap32 answers an int32 (R11). -/
theorem wrap32_range (v : Int) : -2147483648 ≤ wrap32 v ∧ wrap32 v < 2147483648 := by
  unfold wrap32
  have h1 := Int.le_bmod (x := v) (m := 2 ^ 32) (by decide)
  have h2 := Int.bmod_lt (x := v) (m := 2 ^ 32) (by decide)
  constructor <;> omega

/-- wrap32 leaves an int32 alone (R11). -/
theorem wrap32_of_range {v : Int} (h1 : -2147483648 ≤ v) (h2 : v < 2147483648) : wrap32 v = v := by
  unfold wrap32
  rw [Int.bmod_eq_of_le] <;> omega

/-- trunc16 answers an int16 (R11). -/
theorem trunc16_range (v : Int) : -32768 ≤ trunc16 v ∧ trunc16 v < 32768 := by
  unfold trunc16
  have h1 := Int.le_bmod (x := v) (m := 2 ^ 16) (by decide)
  have h2 := Int.bmod_lt (x := v) (m := 2 ^ 16) (by decide)
  constructor <;> omega

/-- trunc16 leaves an int16 alone (R11). -/
theorem trunc16_of_range {v : Int} (h1 : -32768 ≤ v) (h2 : v < 32768) : trunc16 v = v := by
  unfold trunc16
  rw [Int.bmod_eq_of_le] <;> omega

/-- wrap32 v and v differ by a multiple of 2^32 (R11). -/
theorem wrap32_emod (v : Int) : wrap32 v % 4294967296 = v % 4294967296 := by
  unfold wrap32
  exact Int.bmod_emod

/-- trunc16 v and v differ by a multiple of 2^16 (R11). -/
theorem trunc16_emod (v : Int) : trunc16 v % 65536 = v % 65536 := by
  unfold trunc16
  exact Int.bmod_emod

/-- The wrap of a sum does not depend on a wrap inside it (R12). -/
theorem wrap32_add_wrap32 (a b : Int) : wrap32 (a + wrap32 b) = wrap32 (a + b) := by
  simp [wrap32]

/-- The integer a stored int16 reads as (R11). -/
theorem toInt_toHalf (v : Int) : (toHalf v).toInt = trunc16 v := by
  simp [toHalf, trunc16, BitVec.toInt_ofInt]

/-- The integer a stored int32 reads as (R11). -/
theorem toInt_toWord (v : Int) : (toWord v).toInt = wrap32 v := by
  simp [toWord, wrap32, BitVec.toInt_ofInt]

/-- hi(x) is an int16 (R106). -/
theorem hi16_range (x : Int) : -32768 ≤ hi16 x ∧ hi16 x < 32768 := trunc16_range _

/-- lo(x) is an int16 (R106). -/
theorem lo16_range (x : Int) : -32768 ≤ lo16 x ∧ lo16 x < 32768 := trunc16_range _

@[simp] theorem split_hi (x : Int) : (split x).hi = hi16 x := rfl
@[simp] theorem split_lo (x : Int) : (split x).lo = lo16 x := rfl

end Sys2Proof.Machine
end

