-- ==== Sys2Proof/Laws/Arrays.lean ====
section
/-! SUPPORT. The laws of the register arrays: what a stored list reads as, and what is left alone. -/

namespace Sys2Proof.Machine

variable {w n : Nat}

/-- A list stored from entry i is read back there; every other entry keeps its value. -/
theorem getElem_writeFrom (v : Vector (BitVec w) n) (i : Nat) (xs : List (BitVec w)) (j : Nat)
    (hj : j < n) :
    (writeFrom v i xs)[j] = if h : i ≤ j ∧ j - i < xs.length then xs[j - i]'h.2 else v[j] := by
  induction xs generalizing v i with
  | nil => simp [writeFrom]
  | cons x xs ih =>
    rw [writeFrom, ih, Vector.getElem_setIfInBounds]
    by_cases hij : i = j
    · subst hij
      have e : ¬ (i + 1 ≤ i ∧ i - (i + 1) < xs.length) := by omega
      simp
    · by_cases h1 : i + 1 ≤ j ∧ j - (i + 1) < xs.length
      · have h2 : i ≤ j ∧ j - i < (x :: xs).length := by simp only [List.length_cons]; omega
        have e : j - i = (j - (i + 1)) + 1 := by omega
        simp only [dif_pos h1, dif_pos h2]
        simp [e]
      · have h2 : ¬ (i ≤ j ∧ j - i < (x :: xs).length) := by simp only [List.length_cons]; omega
        rw [dif_neg h1, dif_neg h2, if_neg hij]

/-- Storing a list from entry 0. -/
theorem getElem_writeFrom_zero (v : Vector (BitVec w) n) (xs : List (BitVec w)) (j : Nat) (hj : j < n) :
    (writeFrom v 0 xs)[j] = if h : j < xs.length then xs[j] else v[j] := by
  simp [getElem_writeFrom]

/-- The number of integers read from the head of an array. -/
@[simp] theorem length_firstInts (v : Vector (BitVec w) n) (count : Nat) :
    (firstInts v count).length = min count n := by
  simp [firstInts]

/-- The integers read from the head of an array are its entries. -/
theorem getElem_firstInts (v : Vector (BitVec w) n) (count j : Nat)
    (h : j < (firstInts v count).length) :
    (firstInts v count)[j] = (v[j]'(by simp at h; omega)).toInt := by
  simp [firstInts]

end Sys2Proof.Machine
end

