-- ==== Sys2Proof/Laws/Memory.lean ====
section
/-! SUPPORT. The laws of the buffers' memory: a read after a write, the canonical form kept by every
memory operation, and what reading and writing samples do. -/

namespace Sys2Proof.Machine

/-- A byte written is read back, and every other byte is as before. -/
theorem readByte_writeByte (m : Memory) (x y : Nat) (v : Byte) :
    readByte (writeByte m x v) y = if x = y then some v else readByte m y := by
  induction m with
  | nil => simp [writeByte, readByte]
  | cons c m ih =>
    rcases Nat.lt_trichotomy x c.1 with h | h | h
    · simp [writeByte, readByte, h]
    · by_cases hy : c.1 = y <;> simp [writeByte, readByte, h, hy]
    · have h1 : ¬ x < c.1 := by omega
      have h2 : x ≠ c.1 := by omega
      by_cases hy : c.1 = y
      · have h3 : x ≠ y := by omega
        rw [writeByte, if_neg h1, if_neg h2, if_neg h3]
        simp [readByte, hy]
      · simp [writeByte, readByte, h1, h2, hy, ih]

/-- The offsets a write leaves listed: the written one and those of before. -/
theorem mem_writeByte {m : Memory} {x : Nat} {v : Byte} {c : Host.Cell} (h : c ∈ writeByte m x v) :
    c = (x, v) ∨ c ∈ m := by
  induction m with
  | nil => simpa [writeByte] using h
  | cons d m ih =>
    unfold writeByte at h
    split at h
    · simpa using h
    · split at h
      · rcases List.mem_cons.1 h with h | h
        · exact .inl h
        · exact .inr (List.mem_cons_of_mem _ h)
      · rcases List.mem_cons.1 h with h | h
        · exact .inr (h ▸ List.mem_cons_self)
        · rcases ih h with h | h
          · exact .inl h
          · exact .inr (List.mem_cons_of_mem _ h)

/-- A write keeps the offsets strictly rising. -/
theorem writeByte_rising {m : Memory} {x : Nat} {v : Byte} (h : m.Pairwise (fun c d => c.1 < d.1)) :
    (writeByte m x v).Pairwise (fun c d => c.1 < d.1) := by
  induction m with
  | nil => simp [writeByte]
  | cons c m ih =>
    obtain ⟨hc, hm⟩ := List.pairwise_cons.1 h
    unfold writeByte
    split
    · rename_i hx
      refine List.pairwise_cons.2 ⟨fun d hd => ?_, h⟩
      rcases List.mem_cons.1 hd with rfl | hd
      · exact hx
      · exact Nat.lt_trans hx (hc d hd)
    · split
      · rename_i _ hx
        exact List.pairwise_cons.2 ⟨fun d hd => by rw [hx]; exact hc d hd, hm⟩
      · rename_i h1 h2
        refine List.pairwise_cons.2 ⟨fun d hd => ?_, ih hm⟩
        rcases mem_writeByte hd with rfl | hd
        · simp; omega
        · exact hc d hd

/-- A write of one stored byte keeps the canonical form. -/
theorem writeByte_wf {m : Memory} {x : Nat} {v : Byte} (h : m.wf) (hx : isBufferByte x = true) :
    (writeByte m x v).wf := by
  refine ⟨writeByte_rising h.1, fun c hc => ?_⟩
  rcases mem_writeByte hc with rfl | hc
  · exact hx
  · exact h.2 c hc

/-- Both bytes of an element of a buffer are stored bytes. -/
theorem isBufferByte_sampleAddr {b : Buf} {i : Nat} (h : i < 640) :
    isBufferByte (sampleAddr b i) = true ∧ isBufferByte (sampleAddr b i + 1) = true := by
  cases b <;> simp [isBufferByte, sampleAddr, bufBase] <;> omega

/-- A write of one element keeps the canonical form. -/
theorem writeSample_wf {m : Memory} {b : Buf} {i : Nat} {v : Half} (h : m.wf) (hi : i < 640) :
    (writeSample m b i v).wf :=
  writeByte_wf (writeByte_wf h (isBufferByte_sampleAddr hi).1) (isBufferByte_sampleAddr hi).2

/-- A write of a run of elements that stays in the buffer keeps the canonical form. -/
theorem writeSamples_wf {m : Memory} {b : Buf} {i : Nat} {vs : List Half} (h : m.wf)
    (hi : i + vs.length ≤ 640) : (writeSamples m b i vs).wf := by
  induction vs generalizing m i with
  | nil => exact h
  | cons v vs ih =>
    simp only [List.length_cons] at hi
    exact ih (writeSample_wf h (by omega)) (by omega)

/-- The memory after a hardware reset is in the canonical form. -/
theorem reset_mem_wf : State.reset.mem.wf := by simp [State.reset, Memory.wf]

/-- Elements are four offsets apart, so two of them are the same or share no stored byte. -/
theorem sampleAddr_ne {b : Buf} {i j : Nat} (h : i ≠ j) : sampleAddr b i ≠ sampleAddr b j := by
  simp only [sampleAddr]; omega

/-- Every offset of an element is a multiple of four. -/
theorem sampleAddr_mod (b : Buf) (i : Nat) : sampleAddr b i % 4 = 0 := by
  cases b <;> simp [sampleAddr, bufBase]

/-- What one byte reads after the write of one element. -/
theorem readByte_writeSample (m : Memory) (b : Buf) (i x : Nat) (v : Half) :
    readByte (writeSample m b i v) x =
      if x = sampleAddr b i + 1 then some (v.extractLsb' 8 8)
      else if x = sampleAddr b i then some (v.extractLsb' 0 8)
      else readByte m x := by
  simp only [writeSample, readByte_writeByte, eq_comm (a := x)]

/-- An element's two bytes together are the element. -/
theorem halves_append (v : Half) : v.extractLsb' 8 8 ++ v.extractLsb' 0 8 = v := by
  apply BitVec.eq_of_getLsbD_eq
  intro i hi
  simp only [BitVec.getLsbD_append, BitVec.getLsbD_extractLsb']
  by_cases h : i < 8
  · simp [h]
  · have h1 : i - 8 < 8 := by omega
    have h2 : 8 + (i - 8) = i := by omega
    simp [h, h1, h2]

/-- An element written is read back, and every other element is as before. -/
theorem readSample_writeSample (m : Memory) (b : Buf) (i j : Nat) (v : Half) (c : Buf) :
    readSample (writeSample m b i v) c j =
      if sampleAddr b i = sampleAddr c j then some v else readSample m c j := by
  have h1 := sampleAddr_mod b i
  have h2 := sampleAddr_mod c j
  by_cases h : sampleAddr b i = sampleAddr c j
  · have e1 : sampleAddr c j ≠ sampleAddr c j + 1 := by omega
    simp only [readSample, readByte_writeSample, h, e1, if_true, if_false, halves_append]
  · have e1 : sampleAddr c j ≠ sampleAddr b i + 1 := by omega
    have e2 : sampleAddr c j ≠ sampleAddr b i := fun e => h e.symm
    have e3 : ¬ (sampleAddr c j + 1 = sampleAddr b i + 1) := by omega
    have e4 : sampleAddr c j + 1 ≠ sampleAddr b i := by omega
    simp only [readSample, readByte_writeSample, h, e1, e2, e3, e4, if_false]

/-- A run of elements written from index i: every byte outside them reads as before. -/
theorem readByte_writeSamples {m : Memory} {b : Buf} {i x : Nat} {vs : List Half}
    (h : ∀ j, i ≤ j → j < i + vs.length → x ≠ sampleAddr b j ∧ x ≠ sampleAddr b j + 1) :
    readByte (writeSamples m b i vs) x = readByte m x := by
  induction vs generalizing m i with
  | nil => rfl
  | cons v vs ih =>
    rw [writeSamples, ih (fun j h1 h2 => h j (by omega) (by simp only [List.length_cons]; omega)),
      readByte_writeSample]
    have := h i (Nat.le_refl _) (by simp)
    simp [this.1, this.2]

/-- A run of elements written from index i is read back in order. -/
theorem readSample_writeSamples {m : Memory} {b : Buf} {i j : Nat} {vs : List Half} :
    readSample (writeSamples m b i vs) b j =
      if h : i ≤ j ∧ j - i < vs.length then some (vs[j - i]'h.2) else readSample m b j := by
  induction vs generalizing m i with
  | nil => simp [writeSamples]
  | cons v vs ih =>
    rw [writeSamples, ih]
    by_cases hij : i = j
    · subst hij
      have e : ¬ (i + 1 ≤ i ∧ i - (i + 1) < vs.length) := by omega
      simp [readSample_writeSample]
    · have hne : sampleAddr b i ≠ sampleAddr b j := sampleAddr_ne hij
      by_cases h1 : i + 1 ≤ j ∧ j - (i + 1) < vs.length
      · have h2 : i ≤ j ∧ j - i < (v :: vs).length := by simp only [List.length_cons]; omega
        have e : j - i = (j - (i + 1)) + 1 := by omega
        simp only [dif_pos h1, dif_pos h2]
        simp [e]
      · have h2 : ¬ (i ≤ j ∧ j - i < (v :: vs).length) := by simp only [List.length_cons]; omega
        rw [dif_neg h1, dif_neg h2, readSample_writeSample, if_neg hne]

/-- Reading a run of elements succeeds exactly with the list of those elements. -/
theorem readSamples_eq_some {m : Memory} {b : Buf} {i n : Nat} {xs : List Half} :
    readSamples m b i n = some xs ↔
      xs.length = n ∧ ∀ j (h : j < xs.length), readSample m b (i + j) = some xs[j] := by
  induction n generalizing i xs with
  | zero =>
    constructor
    · intro h; simp only [readSamples, Option.some.injEq] at h; subst h; simp
    · rintro ⟨h, -⟩; simp [readSamples, List.length_eq_zero_iff.1 h]
  | succ n ih =>
    constructor
    · intro h
      simp only [readSamples] at h
      split at h
      · cases h
      · rename_i x hx
        split at h
        · cases h
        · rename_i ys hys
          cases h
          obtain ⟨hl, hr⟩ := ih.1 hys
          refine ⟨by simp [hl], fun j hj => ?_⟩
          cases j with
          | zero => simpa using hx
          | succ j =>
            have := hr j (by simpa using hj)
            rw [show i + (j + 1) = i + 1 + j by omega]
            simpa using this
    · rintro ⟨hl, hr⟩
      cases xs with
      | nil => simp at hl
      | cons x ys =>
        have h0 := hr 0 (by simp)
        have h1 : readSamples m b (i + 1) n = some ys := by
          refine ih.2 ⟨by simpa using hl, fun j hj => ?_⟩
          have := hr (j + 1) (by simpa using hj)
          rw [show i + (j + 1) = i + 1 + j by omega] at this
          simpa using this
        simp only [Nat.add_zero, List.getElem_cons_zero] at h0
        simp [readSamples, h0, h1]

/-- Reading a run of elements fails exactly where one of them is unwritten. -/
theorem readSamples_eq_none {m : Memory} {b : Buf} {i n : Nat} :
    readSamples m b i n = none ↔ ∃ j, j < n ∧ readSample m b (i + j) = none := by
  induction n generalizing i with
  | zero => simp [readSamples]
  | succ n ih =>
    simp only [readSamples]
    constructor
    · intro h
      split at h
      · rename_i hx; exact ⟨0, by omega, hx⟩
      · split at h
        · rename_i hys
          obtain ⟨j, hj, hr⟩ := ih.1 hys
          exact ⟨j + 1, by omega, by rw [← hr]; congr 1; omega⟩
        · cases h
    · rintro ⟨j, hj, hr⟩
      split
      · rfl
      · rename_i x hx
        cases j with
        | zero => simp only [Nat.add_zero] at hr; rw [hr] at hx; cases hx
        | succ j =>
          have : readSamples m b (i + 1) n = none :=
            ih.2 ⟨j, by omega, by rw [← hr]; congr 1; omega⟩
          simp [this]

end Sys2Proof.Machine
end

