-- ==== Sys2Proof/Laws/State.lean ====
section
/-! SUPPORT. One lemma per field of State per update, each true by rfl, so that no later proof unfolds a
record update. -/

namespace Sys2Proof.Machine

/-! ### Completion (R200) -/

@[simp] theorem complete_ctrl (code : ResultCode) (f : Nat) (s : State) : (complete code f s).ctrl = s.ctrl := rfl
@[simp] theorem complete_status (code : ResultCode) (f : Nat) (s : State) : (complete code f s).status = s.status.completed code f := rfl
@[simp] theorem complete_cmd (code : ResultCode) (f : Nat) (s : State) : (complete code f s).cmd = s.cmd := rfl
@[simp] theorem complete_seed (code : ResultCode) (f : Nat) (s : State) : (complete code f s).seed = s.seed := rfl
@[simp] theorem complete_acscale (code : ResultCode) (f : Nat) (s : State) : (complete code f s).acscale = s.acscale := rfl
@[simp] theorem complete_r (code : ResultCode) (f : Nat) (s : State) : (complete code f s).r = s.r := rfl
@[simp] theorem complete_k (code : ResultCode) (f : Nat) (s : State) : (complete code f s).k = s.k := rfl
@[simp] theorem complete_a (code : ResultCode) (f : Nat) (s : State) : (complete code f s).a = s.a := rfl
@[simp] theorem complete_fshi (code : ResultCode) (f : Nat) (s : State) : (complete code f s).fshi = s.fshi := rfl
@[simp] theorem complete_fslo (code : ResultCode) (f : Nat) (s : State) : (complete code f s).fslo = s.fslo := rfl
@[simp] theorem complete_mem (code : ResultCode) (f : Nat) (s : State) : (complete code f s).mem = s.mem := rfl
@[simp] theorem complete_pending (code : ResultCode) (f : Nat) (s : State) : (complete code f s).pending = none := rfl
@[simp] theorem complete_schedule (code : ResultCode) (f : Nat) (s : State) : (complete code f s).schedule = s.schedule := rfl
@[simp] theorem complete_answer (code : ResultCode) (f : Nat) (s : State) : (complete code f s).answer = s.answer := rfl
@[simp] theorem complete_awaiting (code : ResultCode) (f : Nat) (s : State) : (complete code f s).awaiting = (s.awaiting && !s.ctrl.irqEn) := rfl

/-! ### Issue (R191) -/

@[simp] theorem issue_ctrl (w : Word) (s : State) : (issue w s).ctrl = s.ctrl := rfl
@[simp] theorem issue_status (w : Word) (s : State) : (issue w s).status = s.status.issued := rfl
@[simp] theorem issue_cmd (w : Word) (s : State) : (issue w s).cmd = w := rfl
@[simp] theorem issue_seed (w : Word) (s : State) : (issue w s).seed = s.seed := rfl
@[simp] theorem issue_acscale (w : Word) (s : State) : (issue w s).acscale = s.acscale := rfl
@[simp] theorem issue_r (w : Word) (s : State) : (issue w s).r = s.r := rfl
@[simp] theorem issue_k (w : Word) (s : State) : (issue w s).k = s.k := rfl
@[simp] theorem issue_a (w : Word) (s : State) : (issue w s).a = s.a := rfl
@[simp] theorem issue_fshi (w : Word) (s : State) : (issue w s).fshi = s.fshi := rfl
@[simp] theorem issue_fslo (w : Word) (s : State) : (issue w s).fslo = s.fslo := rfl
@[simp] theorem issue_mem (w : Word) (s : State) : (issue w s).mem = s.mem := rfl
@[simp] theorem issue_pending (w : Word) (s : State) : (issue w s).pending = some { word := w, modes := s.ctrl.modes } := rfl
@[simp] theorem issue_schedule (w : Word) (s : State) : (issue w s).schedule = s.schedule := rfl
@[simp] theorem issue_answer (w : Word) (s : State) : (issue w s).answer = s.answer := rfl
@[simp] theorem issue_awaiting (w : Word) (s : State) : (issue w s).awaiting = true := rfl

/-! ### Hardware reset (R230) -/

@[simp] theorem hardReset_ctrl (s : State) : (hardReset s).ctrl = State.reset.ctrl := rfl
@[simp] theorem hardReset_status (s : State) : (hardReset s).status = State.reset.status := rfl
@[simp] theorem hardReset_cmd (s : State) : (hardReset s).cmd = State.reset.cmd := rfl
@[simp] theorem hardReset_seed (s : State) : (hardReset s).seed = State.reset.seed := rfl
@[simp] theorem hardReset_acscale (s : State) : (hardReset s).acscale = State.reset.acscale := rfl
@[simp] theorem hardReset_r (s : State) : (hardReset s).r = State.reset.r := rfl
@[simp] theorem hardReset_k (s : State) : (hardReset s).k = State.reset.k := rfl
@[simp] theorem hardReset_a (s : State) : (hardReset s).a = State.reset.a := rfl
@[simp] theorem hardReset_fshi (s : State) : (hardReset s).fshi = State.reset.fshi := rfl
@[simp] theorem hardReset_fslo (s : State) : (hardReset s).fslo = State.reset.fslo := rfl
@[simp] theorem hardReset_mem (s : State) : (hardReset s).mem = State.reset.mem := rfl
@[simp] theorem hardReset_pending (s : State) : (hardReset s).pending = State.reset.pending := rfl
@[simp] theorem hardReset_schedule (s : State) : (hardReset s).schedule = s.schedule := rfl
@[simp] theorem hardReset_answer (s : State) : (hardReset s).answer = State.reset.answer := rfl
@[simp] theorem hardReset_awaiting (s : State) : (hardReset s).awaiting = State.reset.awaiting := rfl

/-! ### Soft reset (R232) -/

@[simp] theorem softReset_ctrl (s : State) : (softReset s).ctrl = State.reset.ctrl := rfl
@[simp] theorem softReset_status (s : State) : (softReset s).status = State.reset.status := rfl
@[simp] theorem softReset_cmd (s : State) : (softReset s).cmd = State.reset.cmd := rfl
@[simp] theorem softReset_seed (s : State) : (softReset s).seed = State.reset.seed := rfl
@[simp] theorem softReset_acscale (s : State) : (softReset s).acscale = State.reset.acscale := rfl
@[simp] theorem softReset_r (s : State) : (softReset s).r = State.reset.r := rfl
@[simp] theorem softReset_k (s : State) : (softReset s).k = State.reset.k := rfl
@[simp] theorem softReset_a (s : State) : (softReset s).a = State.reset.a := rfl
@[simp] theorem softReset_fshi (s : State) : (softReset s).fshi = State.reset.fshi := rfl
@[simp] theorem softReset_fslo (s : State) : (softReset s).fslo = State.reset.fslo := rfl
@[simp] theorem softReset_mem (s : State) : (softReset s).mem = s.mem := rfl
@[simp] theorem softReset_pending (s : State) : (softReset s).pending = State.reset.pending := rfl
@[simp] theorem softReset_schedule (s : State) : (softReset s).schedule = s.schedule := rfl
@[simp] theorem softReset_answer (s : State) : (softReset s).answer = s.answer := rfl
@[simp] theorem softReset_awaiting (s : State) : (softReset s).awaiting = State.reset.awaiting := rfl

/-! ### The writes of ACORR (R122) -/

@[simp] theorem acorrWrites_ctrl (n : Nat) (xs : List Int) (s : State) : (acorrWrites n xs s).ctrl = s.ctrl := rfl
@[simp] theorem acorrWrites_status (n : Nat) (xs : List Int) (s : State) : (acorrWrites n xs s).status = s.status := rfl
@[simp] theorem acorrWrites_cmd (n : Nat) (xs : List Int) (s : State) : (acorrWrites n xs s).cmd = s.cmd := rfl
@[simp] theorem acorrWrites_seed (n : Nat) (xs : List Int) (s : State) : (acorrWrites n xs s).seed = s.seed := rfl
@[simp] theorem acorrWrites_acscale (n : Nat) (xs : List Int) (s : State) : (acorrWrites n xs s).acscale = BitVec.ofNat 4 (acScale xs) := rfl
@[simp] theorem acorrWrites_r (n : Nat) (xs : List Int) (s : State) : (acorrWrites n xs s).r = writeFrom s.r 0 ((autocorrelation n xs).map toWord) := rfl
@[simp] theorem acorrWrites_k (n : Nat) (xs : List Int) (s : State) : (acorrWrites n xs s).k = s.k := rfl
@[simp] theorem acorrWrites_a (n : Nat) (xs : List Int) (s : State) : (acorrWrites n xs s).a = s.a := rfl
@[simp] theorem acorrWrites_fshi (n : Nat) (xs : List Int) (s : State) : (acorrWrites n xs s).fshi = s.fshi := rfl
@[simp] theorem acorrWrites_fslo (n : Nat) (xs : List Int) (s : State) : (acorrWrites n xs s).fslo = s.fslo := rfl
@[simp] theorem acorrWrites_mem (n : Nat) (xs : List Int) (s : State) : (acorrWrites n xs s).mem = s.mem := rfl
@[simp] theorem acorrWrites_pending (n : Nat) (xs : List Int) (s : State) : (acorrWrites n xs s).pending = s.pending := rfl
@[simp] theorem acorrWrites_schedule (n : Nat) (xs : List Int) (s : State) : (acorrWrites n xs s).schedule = s.schedule := rfl
@[simp] theorem acorrWrites_answer (n : Nat) (xs : List Int) (s : State) : (acorrWrites n xs s).answer = s.answer := rfl
@[simp] theorem acorrWrites_awaiting (n : Nat) (xs : List Int) (s : State) : (acorrWrites n xs s).awaiting = s.awaiting := rfl

/-! ### The writes of K2A (R151) -/

@[simp] theorem k2aWrites_ctrl (n : Nat) (s : State) : (k2aWrites n s).ctrl = s.ctrl := rfl
@[simp] theorem k2aWrites_status (n : Nat) (s : State) : (k2aWrites n s).status = s.status := rfl
@[simp] theorem k2aWrites_cmd (n : Nat) (s : State) : (k2aWrites n s).cmd = s.cmd := rfl
@[simp] theorem k2aWrites_seed (n : Nat) (s : State) : (k2aWrites n s).seed = s.seed := rfl
@[simp] theorem k2aWrites_acscale (n : Nat) (s : State) : (k2aWrites n s).acscale = s.acscale := rfl
@[simp] theorem k2aWrites_r (n : Nat) (s : State) : (k2aWrites n s).r = s.r := rfl
@[simp] theorem k2aWrites_k (n : Nat) (s : State) : (k2aWrites n s).k = s.k := rfl
@[simp] theorem k2aWrites_a (n : Nat) (s : State) : (k2aWrites n s).a = writeFrom s.a 0 ((kToA (firstInts s.k n)).map toHalf) := rfl
@[simp] theorem k2aWrites_fshi (n : Nat) (s : State) : (k2aWrites n s).fshi = s.fshi := rfl
@[simp] theorem k2aWrites_fslo (n : Nat) (s : State) : (k2aWrites n s).fslo = s.fslo := rfl
@[simp] theorem k2aWrites_mem (n : Nat) (s : State) : (k2aWrites n s).mem = s.mem := rfl
@[simp] theorem k2aWrites_pending (n : Nat) (s : State) : (k2aWrites n s).pending = s.pending := rfl
@[simp] theorem k2aWrites_schedule (n : Nat) (s : State) : (k2aWrites n s).schedule = s.schedule := rfl
@[simp] theorem k2aWrites_answer (n : Nat) (s : State) : (k2aWrites n s).answer = s.answer := rfl
@[simp] theorem k2aWrites_awaiting (n : Nat) (s : State) : (k2aWrites n s).awaiting = s.awaiting := rfl

/-! ### The writes of NOISE (R162) -/

@[simp] theorem noiseWrites_ctrl (l : Nat) (d : Buf) (s : State) : (noiseWrites l d s).ctrl = s.ctrl := rfl
@[simp] theorem noiseWrites_status (l : Nat) (d : Buf) (s : State) : (noiseWrites l d s).status = s.status := rfl
@[simp] theorem noiseWrites_cmd (l : Nat) (d : Buf) (s : State) : (noiseWrites l d s).cmd = s.cmd := rfl
@[simp] theorem noiseWrites_seed (l : Nat) (d : Buf) (s : State) : (noiseWrites l d s).seed = lcgAfter s.seed l := rfl
@[simp] theorem noiseWrites_acscale (l : Nat) (d : Buf) (s : State) : (noiseWrites l d s).acscale = s.acscale := rfl
@[simp] theorem noiseWrites_r (l : Nat) (d : Buf) (s : State) : (noiseWrites l d s).r = s.r := rfl
@[simp] theorem noiseWrites_k (l : Nat) (d : Buf) (s : State) : (noiseWrites l d s).k = s.k := rfl
@[simp] theorem noiseWrites_a (l : Nat) (d : Buf) (s : State) : (noiseWrites l d s).a = s.a := rfl
@[simp] theorem noiseWrites_fshi (l : Nat) (d : Buf) (s : State) : (noiseWrites l d s).fshi = s.fshi := rfl
@[simp] theorem noiseWrites_fslo (l : Nat) (d : Buf) (s : State) : (noiseWrites l d s).fslo = s.fslo := rfl
@[simp] theorem noiseWrites_mem (l : Nat) (d : Buf) (s : State) : (noiseWrites l d s).mem = writeSamples s.mem d 0 (noiseSamples s.modes.nidx s.seed l) := rfl
@[simp] theorem noiseWrites_pending (l : Nat) (d : Buf) (s : State) : (noiseWrites l d s).pending = s.pending := rfl
@[simp] theorem noiseWrites_schedule (l : Nat) (d : Buf) (s : State) : (noiseWrites l d s).schedule = s.schedule := rfl
@[simp] theorem noiseWrites_answer (l : Nat) (d : Buf) (s : State) : (noiseWrites l d s).answer = s.answer := rfl
@[simp] theorem noiseWrites_awaiting (l : Nat) (d : Buf) (s : State) : (noiseWrites l d s).awaiting = s.awaiting := rfl

/-! ### The writes of SYNTH (R172) -/

@[simp] theorem synthWrites_ctrl (d : Buf) (ys : List (Int × Int)) (s : State) : (synthWrites d ys s).ctrl = s.ctrl := rfl
@[simp] theorem synthWrites_status (d : Buf) (ys : List (Int × Int)) (s : State) : (synthWrites d ys s).status = s.status := rfl
@[simp] theorem synthWrites_cmd (d : Buf) (ys : List (Int × Int)) (s : State) : (synthWrites d ys s).cmd = s.cmd := rfl
@[simp] theorem synthWrites_seed (d : Buf) (ys : List (Int × Int)) (s : State) : (synthWrites d ys s).seed = s.seed := rfl
@[simp] theorem synthWrites_acscale (d : Buf) (ys : List (Int × Int)) (s : State) : (synthWrites d ys s).acscale = s.acscale := rfl
@[simp] theorem synthWrites_r (d : Buf) (ys : List (Int × Int)) (s : State) : (synthWrites d ys s).r = s.r := rfl
@[simp] theorem synthWrites_k (d : Buf) (ys : List (Int × Int)) (s : State) : (synthWrites d ys s).k = s.k := rfl
@[simp] theorem synthWrites_a (d : Buf) (ys : List (Int × Int)) (s : State) : (synthWrites d ys s).a = s.a := rfl
@[simp] theorem synthWrites_fshi (d : Buf) (ys : List (Int × Int)) (s : State) : (synthWrites d ys s).fshi = shiftIn s.fshi (ys.map (fun p => toHalf p.1)) := rfl
@[simp] theorem synthWrites_fslo (d : Buf) (ys : List (Int × Int)) (s : State) : (synthWrites d ys s).fslo = shiftIn s.fslo (ys.map (fun p => toHalf p.2)) := rfl
@[simp] theorem synthWrites_mem (d : Buf) (ys : List (Int × Int)) (s : State) : (synthWrites d ys s).mem = writeSamples s.mem d 0 (ys.map (fun p => toHalf p.1)) := rfl
@[simp] theorem synthWrites_pending (d : Buf) (ys : List (Int × Int)) (s : State) : (synthWrites d ys s).pending = s.pending := rfl
@[simp] theorem synthWrites_schedule (d : Buf) (ys : List (Int × Int)) (s : State) : (synthWrites d ys s).schedule = s.schedule := rfl
@[simp] theorem synthWrites_answer (d : Buf) (ys : List (Int × Int)) (s : State) : (synthWrites d ys s).answer = s.answer := rfl
@[simp] theorem synthWrites_awaiting (d : Buf) (ys : List (Int × Int)) (s : State) : (synthWrites d ys s).awaiting = s.awaiting := rfl

/-! ### LEVDUR ended OK (R138) -/

@[simp] theorem levdurEnd_stable_ctrl (ks : List Int) (as : List HiLo) (s : State) : (levdurEnd s (.stable ks as)).ctrl = s.ctrl := rfl
@[simp] theorem levdurEnd_stable_status (ks : List Int) (as : List HiLo) (s : State) : (levdurEnd s (.stable ks as)).status = s.status.completed .ok 0 := rfl
@[simp] theorem levdurEnd_stable_cmd (ks : List Int) (as : List HiLo) (s : State) : (levdurEnd s (.stable ks as)).cmd = s.cmd := rfl
@[simp] theorem levdurEnd_stable_seed (ks : List Int) (as : List HiLo) (s : State) : (levdurEnd s (.stable ks as)).seed = s.seed := rfl
@[simp] theorem levdurEnd_stable_acscale (ks : List Int) (as : List HiLo) (s : State) : (levdurEnd s (.stable ks as)).acscale = s.acscale := rfl
@[simp] theorem levdurEnd_stable_r (ks : List Int) (as : List HiLo) (s : State) : (levdurEnd s (.stable ks as)).r = s.r := rfl
@[simp] theorem levdurEnd_stable_k (ks : List Int) (as : List HiLo) (s : State) : (levdurEnd s (.stable ks as)).k = writeFrom s.k 0 (ks.map toHalf) := rfl
@[simp] theorem levdurEnd_stable_a (ks : List Int) (as : List HiLo) (s : State) : (levdurEnd s (.stable ks as)).a = writeFrom s.a 0 ((4096 :: as.map q27ToQ12).map toHalf) := rfl
@[simp] theorem levdurEnd_stable_fshi (ks : List Int) (as : List HiLo) (s : State) : (levdurEnd s (.stable ks as)).fshi = s.fshi := rfl
@[simp] theorem levdurEnd_stable_fslo (ks : List Int) (as : List HiLo) (s : State) : (levdurEnd s (.stable ks as)).fslo = s.fslo := rfl
@[simp] theorem levdurEnd_stable_mem (ks : List Int) (as : List HiLo) (s : State) : (levdurEnd s (.stable ks as)).mem = s.mem := rfl
@[simp] theorem levdurEnd_stable_pending (ks : List Int) (as : List HiLo) (s : State) : (levdurEnd s (.stable ks as)).pending = none := rfl
@[simp] theorem levdurEnd_stable_schedule (ks : List Int) (as : List HiLo) (s : State) : (levdurEnd s (.stable ks as)).schedule = s.schedule := rfl
@[simp] theorem levdurEnd_stable_answer (ks : List Int) (as : List HiLo) (s : State) : (levdurEnd s (.stable ks as)).answer = s.answer := rfl
@[simp] theorem levdurEnd_stable_awaiting (ks : List Int) (as : List HiLo) (s : State) : (levdurEnd s (.stable ks as)).awaiting = (s.awaiting && !s.ctrl.irqEn) := rfl

/-! ### LEVDUR ended UNSTABLE (R137) -/

@[simp] theorem levdurEnd_unstable_ctrl (ks : List Int) (s : State) : (levdurEnd s (.unstable ks)).ctrl = s.ctrl := rfl
@[simp] theorem levdurEnd_unstable_status (ks : List Int) (s : State) : (levdurEnd s (.unstable ks)).status = s.status.completed .unstable (ks.length - 1) := rfl
@[simp] theorem levdurEnd_unstable_cmd (ks : List Int) (s : State) : (levdurEnd s (.unstable ks)).cmd = s.cmd := rfl
@[simp] theorem levdurEnd_unstable_seed (ks : List Int) (s : State) : (levdurEnd s (.unstable ks)).seed = s.seed := rfl
@[simp] theorem levdurEnd_unstable_acscale (ks : List Int) (s : State) : (levdurEnd s (.unstable ks)).acscale = s.acscale := rfl
@[simp] theorem levdurEnd_unstable_r (ks : List Int) (s : State) : (levdurEnd s (.unstable ks)).r = s.r := rfl
@[simp] theorem levdurEnd_unstable_k (ks : List Int) (s : State) : (levdurEnd s (.unstable ks)).k = writeFrom s.k 0 (ks.map toHalf) := rfl
@[simp] theorem levdurEnd_unstable_a (ks : List Int) (s : State) : (levdurEnd s (.unstable ks)).a = s.a := rfl
@[simp] theorem levdurEnd_unstable_fshi (ks : List Int) (s : State) : (levdurEnd s (.unstable ks)).fshi = s.fshi := rfl
@[simp] theorem levdurEnd_unstable_fslo (ks : List Int) (s : State) : (levdurEnd s (.unstable ks)).fslo = s.fslo := rfl
@[simp] theorem levdurEnd_unstable_mem (ks : List Int) (s : State) : (levdurEnd s (.unstable ks)).mem = s.mem := rfl
@[simp] theorem levdurEnd_unstable_pending (ks : List Int) (s : State) : (levdurEnd s (.unstable ks)).pending = none := rfl
@[simp] theorem levdurEnd_unstable_schedule (ks : List Int) (s : State) : (levdurEnd s (.unstable ks)).schedule = s.schedule := rfl
@[simp] theorem levdurEnd_unstable_answer (ks : List Int) (s : State) : (levdurEnd s (.unstable ks)).answer = s.answer := rfl
@[simp] theorem levdurEnd_unstable_awaiting (ks : List Int) (s : State) : (levdurEnd s (.unstable ks)).awaiting = (s.awaiting && !s.ctrl.irqEn) := rfl

/-! ### STATUS at issue and completion -/

@[simp] theorem completed_busy (st : Status) (c : ResultCode) (f : Nat) : (st.completed c f).busy = false := rfl
@[simp] theorem completed_done (st : Status) (c : ResultCode) (f : Nat) : (st.completed c f).done = true := rfl
@[simp] theorem completed_ovr (st : Status) (c : ResultCode) (f : Nat) : (st.completed c f).ovr = st.ovr := rfl
@[simp] theorem completed_result (st : Status) (c : ResultCode) (f : Nat) : (st.completed c f).result = c := rfl
@[simp] theorem completed_failidx (st : Status) (c : ResultCode) (f : Nat) :
    (st.completed c f).failidx = BitVec.ofNat 4 f := rfl
@[simp] theorem issued_busy (st : Status) : st.issued.busy = true := rfl
@[simp] theorem issued_done (st : Status) : st.issued.done = false := rfl
@[simp] theorem issued_ovr (st : Status) : st.issued.ovr = st.ovr := rfl
@[simp] theorem issued_result (st : Status) : st.issued.result = .ok := rfl
@[simp] theorem issued_failidx (st : Status) : st.issued.failidx = 0 := rfl
@[simp] theorem written_busy (st : Status) (v : Word) : (st.written v).busy = st.busy := rfl
@[simp] theorem written_done (st : Status) (v : Word) : (st.written v).done = (st.done && !v[1]) := rfl
@[simp] theorem written_ovr (st : Status) (v : Word) : (st.written v).ovr = (st.ovr && !v[2]) := rfl
@[simp] theorem written_result (st : Status) (v : Word) : (st.written v).result = st.result := rfl
@[simp] theorem written_failidx (st : Status) (v : Word) : (st.written v).failidx = st.failidx := rfl

/-- irq as its two terms (R205). -/
theorem irq_eq (s : State) : s.irq = (s.ctrl.irqEn && s.status.done) := rfl

/-- The mode bits of a pending command are those sampled at its issue (R192). -/
theorem modes_of_pending {s : State} {p : Pending} (h : s.pending = some p) : s.modes = p.modes := by
  simp [State.modes, h]

end Sys2Proof.Machine
end

