-- ==== Sys2Proof/Laws/Ops.lean ====
section
/-! SUPPORT. For each shared operation and each meaning, what it can do, said once: if it answers a next
state, then which. Later proofs cite these and do not unfold the operations. -/

namespace Sys2Proof.Machine

/-- The input samples are read exactly when every one of them is written (R245). -/
theorem inputSamples_eq_some {s : State} {b : Buf} {l : Nat} {xs : List Int} :
    inputSamples s b l = some xs ↔
      ∃ hs : List Half, hs.length = l ∧ (∀ j (h : j < hs.length), readSample s.mem b j = some hs[j])
        ∧ xs = hs.map BitVec.toInt := by
  unfold inputSamples
  constructor
  · intro h
    split at h
    · rename_i hs hr
      obtain ⟨hl, hg⟩ := readSamples_eq_some.1 hr
      exact ⟨hs, hl, fun j hj => by simpa using hg j hj, (Option.some.inj h).symm⟩
    · cases h
  · rintro ⟨hs, hl, hg, rfl⟩
    have : readSamples s.mem b 0 l = some hs :=
      readSamples_eq_some.2 ⟨hl, fun j hj => by simpa using hg j hj⟩
    simp [this]

/-- The input samples are missing exactly when one of them is unwritten (R245). -/
theorem inputSamples_eq_none {s : State} {b : Buf} {l : Nat} :
    inputSamples s b l = none ↔ ∃ j, j < l ∧ readSample s.mem b j = none := by
  unfold inputSamples
  have := readSamples_eq_none (m := s.mem) (b := b) (i := 0) (n := l)
  simp only [Nat.zero_add] at this
  rw [← this]
  split <;> simp_all

/-- As many samples as asked for. -/
theorem length_of_inputSamples {s : State} {b : Buf} {l : Nat} {xs : List Int}
    (h : inputSamples s b l = some xs) : xs.length = l := by
  obtain ⟨hs, hl, -, rfl⟩ := inputSamples_eq_some.1 h
  simpa using hl

/-- All that ACORR can do (R122, R202). -/
theorem execAcorr_next {n l : Nat} {b : Buf} {s t : State} (h : execAcorr n l b s = .next t) :
    (¬ ((n ≤ 12 ∧ n ≤ l) ∧ 1 ≤ l ∧ l ≤ 640) ∧ t = complete .badParam 0 s) ∨
    ((n ≤ 12 ∧ n ≤ l) ∧ (1 ≤ l ∧ l ≤ 640) ∧
      ∃ xs, inputSamples s b l = some xs ∧ t = complete .ok 0 (acorrWrites n xs s)) := by
  unfold execAcorr lagsLegal lenLegal at h
  split at h
  · rename_i hc
    simp only [Bool.and_eq_true, decide_eq_true_eq] at hc
    split at h
    · cases h
    · rename_i xs hx
      cases h
      exact .inr ⟨hc.1, hc.2, xs, hx, rfl⟩
  · rename_i hc
    simp only [Bool.and_eq_true, decide_eq_true_eq] at hc
    cases h
    exact .inl ⟨hc, rfl⟩

/-- All that LEVDUR can do (R132, R202). -/
theorem execLevdur_next {n : Nat} {s t : State} (h : execLevdur n s = .next t) :
    (¬ (1 ≤ n ∧ n ≤ 12) ∧ t = complete .badParam 0 s) ∨
    ((1 ≤ n ∧ n ≤ 12) ∧ t = levdurEnd s (levinson s.modes.k0chk (firstInts s.r (n + 1)))) := by
  unfold execLevdur orderLegal at h
  split at h
  · rename_i hc
    cases h
    exact .inr ⟨by simpa using hc, rfl⟩
  · rename_i hc
    cases h
    exact .inl ⟨by simpa using hc, rfl⟩

/-- All that K2A can do (R151, R202). -/
theorem execK2a_next {n : Nat} {s t : State} (h : execK2a n s = .next t) :
    (¬ (1 ≤ n ∧ n ≤ 12) ∧ t = complete .badParam 0 s) ∨
    ((1 ≤ n ∧ n ≤ 12) ∧ t = complete .ok 0 (k2aWrites n s)) := by
  unfold execK2a orderLegal at h
  split at h
  · rename_i hc
    cases h
    exact .inr ⟨by simpa using hc, rfl⟩
  · rename_i hc
    cases h
    exact .inl ⟨by simpa using hc, rfl⟩

/-- All that NOISE can do (R162, R202). -/
theorem execNoise_next {l : Nat} {d : Buf} {s t : State} (h : execNoise l d s = .next t) :
    (¬ (1 ≤ l ∧ l ≤ 640) ∧ t = complete .badParam 0 s) ∨
    ((1 ≤ l ∧ l ≤ 640) ∧ t = complete .ok 0 (noiseWrites l d s)) := by
  unfold execNoise lenLegal at h
  split at h
  · rename_i hc
    cases h
    exact .inr ⟨by simpa using hc, rfl⟩
  · rename_i hc
    cases h
    exact .inl ⟨by simpa using hc, rfl⟩

/-- All that SYNTH can do (R172, R202). -/
theorem execSynth_next {n l : Nat} {b d : Buf} {s t : State} (h : execSynth n l b d s = .next t) :
    (¬ ((1 ≤ n ∧ n ≤ 12) ∧ 1 ≤ l ∧ l ≤ 640) ∧ t = complete .badParam 0 s) ∨
    ((1 ≤ n ∧ n ≤ 12) ∧ (1 ≤ l ∧ l ≤ 640) ∧
      ∃ xs, inputSamples s b l = some xs ∧
        t = complete .ok 0 (synthWrites d (synthOutputs n xs s) s)) := by
  unfold execSynth orderLegal lenLegal at h
  split at h
  · rename_i hc
    simp only [Bool.and_eq_true, decide_eq_true_eq] at hc
    split at h
    · cases h
    · rename_i xs hx
      cases h
      exact .inr ⟨hc.1, hc.2, xs, hx, rfl⟩
  · rename_i hc
    simp only [Bool.and_eq_true, decide_eq_true_eq] at hc
    cases h
    exact .inl ⟨hc, rfl⟩

/-- All that a read transaction can do (R60, R63, R240, R245). -/
theorem hostRead_next {offset : BitVec 16} {lanes : BitVec 4} {s t : State}
    (h : hostRead offset lanes s = .next t) :
    ∃ reg w, selectRegister offset lanes = some reg ∧ (reg.guarded && s.guards) = false ∧
      readRegister s reg = some w ∧ t = observed reg { s with answer := .data w } := by
  unfold hostRead at h
  split at h
  · cases h
  · rename_i reg hr
    split at h
    · cases h
    · rename_i hg
      split at h
      · cases h
      · rename_i w hw
        cases h
        exact ⟨reg, w, hr, by simpa using hg, hw, rfl⟩

/-- All that a write transaction can do (R61, R63, R240). -/
theorem hostWrite_next {offset : BitVec 16} {lanes : BitVec 4} {v : Word} {s t : State}
    (h : hostWrite offset lanes v s = .next t) :
    ∃ reg, selectRegister offset lanes = some reg ∧ (reg.guarded && s.guards) = false ∧
      t = { writeRegister v s reg with answer := .ok } := by
  unfold hostWrite at h
  split at h
  · cases h
  · rename_i reg hr
    split at h
    · cases h
    · rename_i hg
      cases h
      exact ⟨reg, hr, by simpa using hg, rfl⟩

/-- All that running a command word can do (R87, R192, R201). -/
theorem runWord_next {w : Word} {s t : State} (h : runWord w s = .next t) :
    (∃ i, decodeWord w = .ok i ∧ exec i s = .next t) ∨
    (∃ e, decodeWord w = .error e ∧ t = complete .illegal 0 s) := by
  unfold runWord at h
  split at h
  · rename_i i hi; exact .inl ⟨i, hi, h⟩
  · rename_i e he
    cases h
    exact .inr ⟨e, he, rfl⟩

/-- All that the engine's turn can do (R192, R216). -/
theorem engineStep_next {s t : State} (h : engineStep s = .next t) :
    (∃ p, s.pending = some p ∧ s.status.busy = true ∧ runWord p.word s = .next t) ∨
    ((s.pending = none ∨ s.status.busy = false) ∧ t = s) := by
  unfold engineStep at h
  split at h
  · rename_i p hp
    split at h
    · rename_i hb; exact .inl ⟨p, hp, hb, h⟩
    · rename_i hb
      cases h
      exact .inr ⟨.inr (by simpa using hb), rfl⟩
  · rename_i hp
    cases h
    exact .inr ⟨.inl hp, rfl⟩

/-- All that one step can do: the event it takes from the schedule, or the engine's turn where none is
left (R62, R192). -/
theorem step_next {s t : State} (h : step s = .next t) :
    (s.schedule = [] ∧ engineStep s = .next t) ∨
    (∃ rest, s.schedule = .engine :: rest ∧ engineStep { s with schedule := rest } = .next t) ∨
    (∃ rest, s.schedule = .reset :: rest ∧ t = hardReset { s with schedule := rest }) ∨
    (∃ x l rest, s.schedule = .read x l :: rest ∧ hostRead x l { s with schedule := rest } = .next t) ∨
    (∃ x l v rest, s.schedule = .write x l v :: rest ∧
      hostWrite x l v { s with schedule := rest } = .next t) := by
  unfold step at h
  split at h
  · rename_i hs; exact .inl ⟨hs, h⟩
  · rename_i e rest hs
    cases e with
    | read x l => exact .inr (.inr (.inr (.inl ⟨x, l, rest, hs, h⟩)))
    | write x l v => exact .inr (.inr (.inr (.inr ⟨x, l, v, rest, hs, h⟩)))
    | reset =>
      cases h
      exact .inr (.inr (.inl ⟨rest, hs, rfl⟩))
    | engine => exact .inr (.inl ⟨rest, hs, h⟩)

/-- Above the control block no control register is selected (R21). -/
theorem controlRegister_of_gt {x : Nat} (h : 0x14 < x) : controlRegister x = none := by
  unfold controlRegister
  split <;> first | rfl | omega

/-- An offset in an array selects its element (R21). -/
theorem arrayIndex_hit {base n : Nat} (i : Fin n) : arrayIndex base n (base + 4 * i.val) = some i := by
  have h : base ≤ base + 4 * i.val ∧ (base + 4 * i.val - base) / 4 < n := by
    have := i.isLt; omega
  rw [arrayIndex, dif_pos h]
  congr 1
  apply Fin.ext
  show (base + 4 * i.val - base) / 4 = i.val
  omega

/-- An offset outside an array selects none of its elements (R21). -/
theorem arrayIndex_miss {base n x : Nat} (h : x < base ∨ base + 4 * n ≤ x) :
    arrayIndex base n x = none := by
  rw [arrayIndex, dif_neg]
  omega

/-- An offset selects the register whose offset it is (R21). -/
theorem registerAt_offset (reg : Register) : registerAt reg.offset = some reg := by
  match reg with
  | .r i =>
    have := i.isLt
    show registerAt (0x0100 + 4 * i.val) = _
    rw [registerAt, if_pos (by omega), controlRegister_of_gt (by omega), arrayIndex_hit]
    rfl
  | .k i =>
    have := i.isLt
    show registerAt (0x0140 + 4 * i.val) = _
    rw [registerAt, if_pos (by omega), controlRegister_of_gt (by omega),
      arrayIndex_miss (by omega), arrayIndex_hit]
    rfl
  | .a i =>
    have := i.isLt
    show registerAt (0x0180 + 4 * i.val) = _
    rw [registerAt, if_pos (by omega), controlRegister_of_gt (by omega),
      arrayIndex_miss (by omega), arrayIndex_miss (by omega), arrayIndex_hit]
    rfl
  | .fshi i =>
    have := i.isLt
    show registerAt (0x01C0 + 4 * i.val) = _
    rw [registerAt, if_pos (by omega), controlRegister_of_gt (by omega),
      arrayIndex_miss (by omega), arrayIndex_miss (by omega), arrayIndex_miss (by omega),
      arrayIndex_hit]
    rfl
  | .fslo i =>
    have := i.isLt
    show registerAt (0x0200 + 4 * i.val) = _
    rw [registerAt, if_pos (by omega), controlRegister_of_gt (by omega),
      arrayIndex_miss (by omega), arrayIndex_miss (by omega), arrayIndex_miss (by omega),
      arrayIndex_miss (by omega), arrayIndex_hit]
    rfl
  | .buf .b0 i =>
    have := i.isLt
    show registerAt (0x1000 + 4 * i.val) = _
    rw [registerAt, if_pos (by omega), controlRegister_of_gt (by omega),
      arrayIndex_miss (by omega), arrayIndex_miss (by omega), arrayIndex_miss (by omega),
      arrayIndex_miss (by omega), arrayIndex_miss (by omega), arrayIndex_hit]
    rfl
  | .buf .b1 i =>
    have := i.isLt
    show registerAt (0x2000 + 4 * i.val) = _
    rw [registerAt, if_pos (by omega), controlRegister_of_gt (by omega),
      arrayIndex_miss (by omega), arrayIndex_miss (by omega), arrayIndex_miss (by omega),
      arrayIndex_miss (by omega), arrayIndex_miss (by omega), arrayIndex_miss (by omega),
      arrayIndex_hit]
    rfl
  | .ntab i =>
    have := i.isLt
    show registerAt (0x3000 + 4 * i.val) = _
    rw [registerAt, if_pos (by omega), controlRegister_of_gt (by omega),
      arrayIndex_miss (by omega), arrayIndex_miss (by omega), arrayIndex_miss (by omega),
      arrayIndex_miss (by omega), arrayIndex_miss (by omega), arrayIndex_miss (by omega),
      arrayIndex_miss (by omega), arrayIndex_hit]
    rfl
  | .id | .ctrl | .status | .cmd | .seed | .acscale => rfl

end Sys2Proof.Machine
end

