-- ==== Sys2Proof/Laws/PerInstr.lean ====
section
/-! SUPPORT. A statement about every command as syntax, one lemma per constructor of Instr: its encoding
carries its opcode and no reserved bit (30_encoding.md R81, R83). -/

namespace Sys2Proof.Laws

/-- The opcode of a command (R83). -/
def opcodeOf : Instr → Nat
  | .nop => 0
  | .acorr _ _ _ => 1
  | .levdur _ => 2
  | .k2a _ => 3
  | .noise _ _ => 4
  | .synth _ _ _ _ => 5

/-- The word of a well-formed command has its opcode in OP and 0 in RSV. -/
def EncodesOpcode.Statement (i : Instr) : Prop :=
  i.wf = true → opField (encode i) = opcodeOf i ∧ rsvField (encode i) = 0

/-- A command word's OP and RSV, from fields that fit. -/
theorem fields_of_commandWord {op n l s d : Nat} (hop : op < 16) (hn : n < 16) (hl : l < 1024)
    (hs : s < 2) (hd : d < 2) :
    opField (commandWord op n l s d) = op ∧ rsvField (commandWord op n l s d) = 0 := by
  simp only [opField, rsvField, commandWord, BitVec.extractLsb'_toNat, BitVec.toNat_ofNat,
    Nat.shiftRight_eq_div_pow]
  constructor <;> omega

/-- A selector bit is one bit. -/
theorem bitOfBuf_lt (b : Buf) : bitOfBuf b < 2 := by cases b <;> decide

theorem EncodesOpcode.nop : EncodesOpcode.Statement .nop :=
  fun _ => fields_of_commandWord (by decide) (by decide) (by decide) (by decide) (by decide)

theorem EncodesOpcode.acorr (n l : Nat) (src : Buf) : EncodesOpcode.Statement (.acorr n l src) := by
  intro h
  simp only [Instr.wf, orderFits, lenFits, Bool.and_eq_true, decide_eq_true_eq] at h
  exact fields_of_commandWord (by decide) h.1 h.2 (bitOfBuf_lt src) (by decide)

theorem EncodesOpcode.levdur (n : Nat) : EncodesOpcode.Statement (.levdur n) := by
  intro h
  simp only [Instr.wf, orderFits, decide_eq_true_eq] at h
  exact fields_of_commandWord (by decide) h (by decide) (by decide) (by decide)

theorem EncodesOpcode.k2a (n : Nat) : EncodesOpcode.Statement (.k2a n) := by
  intro h
  simp only [Instr.wf, orderFits, decide_eq_true_eq] at h
  exact fields_of_commandWord (by decide) h (by decide) (by decide) (by decide)

theorem EncodesOpcode.noise (l : Nat) (dst : Buf) : EncodesOpcode.Statement (.noise l dst) := by
  intro h
  simp only [Instr.wf, lenFits, decide_eq_true_eq] at h
  exact fields_of_commandWord (by decide) (by decide) h (by decide) (bitOfBuf_lt dst)

theorem EncodesOpcode.synth (n l : Nat) (src dst : Buf) :
    EncodesOpcode.Statement (.synth n l src dst) := by
  intro h
  simp only [Instr.wf, orderFits, lenFits, Bool.and_eq_true, decide_eq_true_eq] at h
  exact fields_of_commandWord (by decide) h.1 h.2 (bitOfBuf_lt src) (bitOfBuf_lt dst)

end Sys2Proof.Laws
end

