-- ==== Sys2Proof/Machine/Script.lean ====
section
/-! DEFINITION. The host-script statements of 30_encoding.md R89 as the transactions they expand to, in
the form of schedule events. `wait` polls STATUS until BUSY = 0: in a schedule it is a number of polls
that read BUSY = 1, the engine's step, and the poll that reads BUSY = 0, the number being the choice of
LATENCY (log 1). -/

namespace Sys2Proof.Machine

/-- `wr <reg>, <value>` (R89). -/
def wrReg (reg : Register) (v : Word) : Event := .write (BitVec.ofNat 16 reg.offset) 0xF v

/-- `rd <reg>` (R89). -/
def rdReg (reg : Register) : Event := .read (BitVec.ofNat 16 reg.offset) 0xF

/-- `wait`, the engine acting after `polls` polls (R89, R192). -/
def waitScript (polls : Nat) : List Event :=
  List.replicate polls (rdReg .status) ++ [.engine, rdReg .status]

/-- `issue <cmd>` (R89), of a command word. -/
def issueScript (w : Word) : List Event := [wrReg .cmd w]

/-- `run <cmd>` (R89), of a command word. -/
def runScript (polls : Nat) (w : Word) : List Event := issueScript w ++ waitScript polls

/-- `clrdone` (R89). -/
def clrdoneScript : List Event := [wrReg .status 0x00000002]

/-- `clrovr` (R89). -/
def clrovrScript : List Event := [wrReg .status 0x00000004]

/-- `srst` (R89). -/
def srstScript : List Event := [wrReg .ctrl 0x00000002]

/-- `mode k0chk=<a>, arrnd=<b>, nidx=<c>, irq=<e>` (R89): the word with those fields. -/
def modeScript (k0chk arrnd nidx irq : Bool) : List Event :=
  [wrReg .ctrl (Ctrl.toWord { irqEn := irq, k0chk := k0chk, arrnd := arrnd, nidx := nidx })]

/-- `setseed <v>` (R89). -/
def setseedScript (v : Word) : List Event := [wrReg .seed v]

/-- `clrstate` (R89): FSHI[i] and FSLO[i] to 0 in increasing i, FSHI before FSLO. -/
def clrstateScript : List Event :=
  (List.finRange 12).flatMap (fun i => [wrReg (.fshi i) 0, wrReg (.fslo i) 0])

/-- Writes of a list of int16 or int32 values to the entries i, i+1, ... of the array at a base. -/
def loadFrom (base i : Nat) : List Int → List Event
  | [] => []
  | v :: vs => .write (BitVec.ofNat 16 (base + 4 * i)) 0xF (BitVec.ofInt 32 v) :: loadFrom base (i + 1) vs

/-- `ldbuf b<X>, [...]` (R89). -/
def ldbufScript (b : Buf) (vs : List Int) : List Event := loadFrom (bufBase b) 0 vs

/-- `ldk [...]` (R89). -/
def ldkScript (vs : List Int) : List Event := loadFrom 0x0140 0 vs

/-- `ldr [...]` (R89). -/
def ldrScript (vs : List Int) : List Event := loadFrom 0x0100 0 vs

end Sys2Proof.Machine
end

