-- ==== Sys2Proof/Tests/Slice0.lean ====
section
/-! SUPPORT. The model's own tests. Every expected number comes from the spec: the words from the rows
of 30_encoding.md R90 or written field by field from R81, the results from spec/95_test_vectors.md, whose vector a
test names. The witnesses at the end show that the hypotheses of each statement can be met. -/

namespace Sys2Proof.Tests

open Sys2Proof.Machine

/-! ### Small states -/

/-- Reset with R[0..] loaded. -/
def withR (vs : List Int) : State :=
  { State.reset with r := writeFrom State.reset.r 0 (vs.map toWord) }

/-- Reset with K[0..] loaded. -/
def withK (vs : List Int) : State :=
  { State.reset with k := writeFrom State.reset.k 0 (vs.map toHalf) }

/-- Reset with BUF[b][0..] and A[0..] loaded. -/
def withBuf (b : Buf) (vs : List Int) (as : List Int := []) : State :=
  { State.reset with
    mem := writeSamples [] b 0 (vs.map toHalf)
    a := writeFrom State.reset.a 0 (as.map toHalf) }

/-- Reset with a command word issued, its step still to come. -/
def issued (w : Word) : State := issue w State.reset

/-- The outcome is a next state with a property. -/
def next (o : StepOutcome) (p : State → Bool) : Bool :=
  match o with
  | .next t => p t
  | .fault _ => false
  | .refused _ => false

/-- An array as integers. -/
def ints {w n : Nat} (v : Vector (BitVec w) n) : List Int := v.toList.map BitVec.toInt

/-! ### Well-formedness: each check refuses an ill-formed command (R81) -/

theorem test_wf_acorr_order : (Instr.acorr 16 1 .b0).wf = false := by decide
theorem test_wf_acorr_len : (Instr.acorr 1 1024 .b0).wf = false := by decide
theorem test_wf_levdur_order : (Instr.levdur 16).wf = false := by decide
theorem test_wf_k2a_order : (Instr.k2a 16).wf = false := by decide
theorem test_wf_noise_len : (Instr.noise 1024 .b1).wf = false := by decide
theorem test_wf_synth_order : (Instr.synth 16 1 .b0 .b0).wf = false := by decide
theorem test_wf_synth_len : (Instr.synth 1 1024 .b0 .b0).wf = false := by decide

/-- The widest well-formed operands. -/
theorem test_wf_widest :
    Instr.nop.wf = true ∧ (Instr.acorr 15 1023 .b1).wf = true ∧ (Instr.levdur 15).wf = true ∧
    (Instr.k2a 15).wf = true ∧ (Instr.noise 1023 .b1).wf = true ∧
    (Instr.synth 15 1023 .b1 .b1).wf = true := by decide

/-! ### Decoding of words written out from R81 and R90 -/

/-- R90, row 1. -/
theorem test_decode_nop : decodeWord 0x00000000 = .ok .nop := by decide

/-- RSV 0, DST 0, SRC 0, LEN 8, ORDER 3, OP 1. -/
theorem test_decode_acorr :
    decodeWord 0b000000000000_0_0_0000001000_0011_0001 = .ok (.acorr 3 8 .b0) := by decide

/-- RSV 0, DST 0, SRC 1, LEN 640, ORDER 12, OP 1. -/
theorem test_decode_acorr_src :
    decodeWord 0b000000000000_0_1_1010000000_1100_0001 = .ok (.acorr 12 640 .b1) := by decide

/-- ORDER 3, OP 2. -/
theorem test_decode_levdur :
    decodeWord 0b000000000000_0_0_0000000000_0011_0010 = .ok (.levdur 3) := by decide

/-- ORDER 12, OP 3. -/
theorem test_decode_k2a :
    decodeWord 0b000000000000_0_0_0000000000_1100_0011 = .ok (.k2a 12) := by decide

/-- DST 1, LEN 4, OP 4; the same with SRC and ORDER set, which NOISE ignores (R84). -/
theorem test_decode_noise :
    decodeWord 0b000000000000_1_0_0000000100_0000_0100 = .ok (.noise 4 .b1) ∧
    decodeWord 0b000000000000_1_1_0000000100_1111_0100 = .ok (.noise 4 .b1) := by decide

/-- DST 1, SRC 0, LEN 6, ORDER 1, OP 5. -/
theorem test_decode_synth :
    decodeWord 0b000000000000_1_0_0000000110_0001_0101 = .ok (.synth 1 6 .b0 .b1) := by decide

/-- The illegal words of R85: the lowest and the highest reserved bit, the first and the last reserved
opcode, and a word that is both (R87: RSV is looked at first). -/
theorem test_decode_illegal :
    decodeWord 0x00100000 = .error .reservedBits ∧ decodeWord 0x80000001 = .error .reservedBits ∧
    decodeWord 0x00000006 = .error .reservedOpcode ∧ decodeWord 0x000FFFFF = .error .reservedOpcode ∧
    decodeWord 0x8000000F = .error .reservedBits := by decide

/-- The bytes of 0x00080615 in the order of R64, and too few bytes. -/
theorem test_decode_bytes :
    decodeBytes [0x15, 0x06, 0x08, 0x00] = .ok (.synth 1 6 .b0 .b1) ∧
    decodeBytes [0x15, 0x06, 0x08] = .error .truncated := by decide

/-- The table's bits 19:0 of the same word. -/
theorem test_decode_table_word :
    decodeTableWord 24 0x080615 = some (.synth 1 6 .b0 .b1) ∧ decodeTableWord 24 0x000006 = none := by
  decide

/-! ### The window -/

/-- R21: the last valid offset of an array, the first of the next, and a reserved one between. -/
theorem test_window_edges :
    registerAt 0x016C = some (.k 11) ∧ registerAt 0x0170 = none ∧ registerAt 0x01C0 = some (.fshi 0) ∧
    registerAt 0x0200 = some (.fslo 0) ∧ registerAt 0x29FC = some (.buf .b1 639) ∧
    registerAt 0x37FC = some (.ntab 511) := by decide +kernel

/-- R36: 0x0001C000 written to K[0] reads as 0xFFFFC000. -/
theorem test_element_write :
    next (hostWrite 0x0140 0xF 0x0001C000 State.reset) (fun t =>
      readRegister t (.k 0) == some 0xFFFFC000 && t.k[0].toInt == -16384) = true := by decide +kernel

/-! ### Primitives -/

/-- V-PR-12, V-PR-13, V-PR-16. -/
theorem test_divHiLo :
    divHiLo 0x20000000 ⟨16384, 0⟩ = 1073741816 ∧ divHiLo 0x40000000 ⟨32767, 32767⟩ = 1073741824 ∧
    divHiLo 5 ⟨0, 0⟩ = -8 := by decide +kernel

/-- V-PR-5. -/
theorem test_normW32 : [0, 1, -1, -2, 0x40000000, 0x7FFFFFFF, -2147483648].map normW32 =
    [0, 30, 31, 30, 0, 0, 0] := by decide +kernel

/-! ### One step of each command -/

/-- R190: NOP's step leaves STATUS = 0x00000002. -/
theorem test_nop_status :
    next (step (State.reset.withFetchWord 32 0)) (fun t =>
      readRegister t .status == some 0x00000002 && t.seed == 7777) = true := by decide +kernel

/-- V-AC-1. -/
theorem test_acorr :
    next (exec (.acorr 3 8 .b0) (withBuf .b0 [100, -200, 300, -400, 500, -600, 700, -800])) (fun t =>
      (ints t.r).take 5 == [2040000, -1680000, 1330000, -1000000, 0] && t.acscale == 0) = true := by
  decide +kernel

/-- V-AC-5: -32768 counts as 32767 in the scale. -/
theorem test_acorr_scaled :
    next (exec (.acorr 1 2 .b1) (withBuf .b1 [-32768, -32768])) (fun t =>
      (ints t.r).take 2 == [1073741824, 536870912] && t.acscale == 1) = true := by decide +kernel

/-- V-LD-1. -/
theorem test_levdur :
    next (exec (.levdur 3) (withR [2040000, -1680000, 1330000, -1000000])) (fun t =>
      (ints t.k).take 4 == [26985, 2671, -2393, 0] && (ints t.a).take 4 == [4096, 3624, 68, -299] &&
      t.status.result == .ok) = true := by decide +kernel

/-- V-LD-13: the third coefficient fails, A is unchanged. -/
theorem test_levdur_unstable :
    next (exec (.levdur 3) (withR [1000, 900, 700, 900])) (fun t =>
      readRegister t .status == some 0x00000212 && (ints t.k).take 3 == [-29492, 18970, -32768] &&
      (ints t.a).take 1 == [0]) = true := by decide +kernel

/-- V-KA-8. -/
theorem test_k2a :
    next (exec (.k2a 4) (withK [-29001, 21532, -2092, 1536])) (fun t =>
      (ints t.a).take 6 == [4096, -6191, 3220, -551, 192, 0]) = true := by decide +kernel

/-- V-KA-4: the arithmetic wraps at int16. -/
theorem test_k2a_wraps :
    next (exec (.k2a 5) (withK [32767, 32767, 32767, 32767, 32767])) (fun t =>
      (ints t.a).take 6 == [4096, 20480, -24576, -24577, 20480, 4096]) = true := by decide +kernel

/-- V-NZ-1: the seed after four samples. -/
theorem test_noise_seed :
    next (exec (.noise 4 .b1) State.reset) (fun t => t.seed == 2054094525) = true := by decide +kernel

/-- V-NZ-1: the entries drawn, whatever the table holds. -/
theorem test_noise_entries :
    noiseSamples false 7777 4 = ([64, 54, 180, 244] : List (Fin 512)).map Config.noiseTable := by rfl

/-- V-SY-7. -/
theorem test_synth :
    next (exec (.synth 4 6 .b0 .b1)
      (withBuf .b0 [1000, -300, 50, 7, 0, 0] [4096, -6191, 3219, -551, 192])) (fun t =>
      (readSamples t.mem .b1 0 6).map (·.map BitVec.toInt) == some [1000, 1211, 1095, 844, 532, 231] &&
      ints t.fslo == [0, 0, 0, 0, 0, 0, 0, 1944, 919, 3445, 1334, 774]) = true := by decide +kernel

/-- V-SY-2, in place (R175). -/
theorem test_synth_rounded :
    next (exec (.synth 1 6 .b0 .b0)
      { withBuf .b0 [1000, 0, 0, 0, 0, 0] [4096, -2048] with
        ctrl := { irqEn := false, k0chk := true, arrnd := true, nidx := false } }) (fun t =>
      (readSamples t.mem .b0 0 6).map (·.map BitVec.toInt) == some [1000, 500, 250, 125, 63, 31] &&
      ints t.fslo == [0, 0, 0, 0, 0, 0, 0, 0, 0, 0, -2048, 1024]) = true := by decide +kernel

/-! ### Witnesses: the hypotheses of each statement can be met -/

/-- `DecodedWordIsItsEncoding`, with every ignored bit set. -/
theorem test_witness_decoded : decodeWord 0x000FFFF0 = .ok .nop ∧
    decodeWord 0x000FFFF1 = .ok (.acorr 15 1023 .b1) ∧ decodeWord 0x000FFFF5 = .ok (.synth 15 1023 .b1 .b1) := by
  decide

/-- `StepRunsDecodedCommand`, `CompletionRecordsResult`, `CommandsKeepTheSchedule` and
`ModeBitsAreSampledAtIssue`: a pending command with the engine's turn next and with none scheduled. -/
theorem test_witness_pending :
    (stagedWord 0x32 State.reset).schedule = .engine :: [] ∧ (issued 0x32).schedule = [] ∧
    (issued 0x32).status.busy = true ∧ decodeWord 0x32 = .ok (.levdur 3) ∧
    (issued 0x32).pending = some ⟨0x32, ⟨true, false, false⟩⟩ ∧
    (∃ t, runWord 0x32 (issued 0x32) = .next t) ∧ ∃ t, exec (.levdur 3) (issued 0x32) = .next t :=
  ⟨rfl, rfl, rfl, by decide, rfl, ⟨_, rfl⟩, ⟨_, rfl⟩⟩

/-- `StepRunsDecodedCommand`: an illegal word pending at the engine's turn, a read next, a write next. -/
theorem test_witness_events :
    ((stagedWord 6 State.reset).pending = some ⟨6, ⟨true, false, false⟩⟩ ∧
      (stagedWord 6 State.reset).status.busy = true ∧ decodeWord 6 = .error .reservedOpcode ∧
      (stagedWord 6 State.reset).schedule = .engine :: []) ∧
    (∃ t, step { issued 0 with schedule := [.read 0x0008 0xF] } = .next t ∧ t.answer = .data 0x00000001) ∧
    ∃ t, step { issued 0 with schedule := [.write 0x000C 0xF 5] } = .next t ∧ t.status.ovr = true :=
  ⟨⟨rfl, rfl, by decide, rfl⟩, ⟨_, rfl, rfl⟩, ⟨_, rfl, rfl⟩⟩

/-- `StagedWordIsTheNextCommand`, at the table's 20 bits and at a whole word. -/
theorem test_witness_staged : decodeTableWord 20 0xFFFF5 = some (.synth 15 1023 .b1 .b1) ∧
    decodeTableWord 32 0x831 = some (.acorr 3 8 .b0) := by decide

/-- `CmdWriteIssuesOrOverruns`: both sides of BUSY. -/
theorem test_witness_busy :
    State.reset.status.busy = false ∧ (issued 0).status.busy = true := by decide

/-- `IllegalWordChangesOnlyStatus` and `IllegalWordsExactly`: each clause at its edges. -/
theorem test_witness_illegal :
    ((0x00100000 : Word).extractLsb' 20 12 ≠ 0 ∧ (0xFFF00000 : Word).extractLsb' 20 12 ≠ 0) ∧
    (6 ≤ ((0x6 : Word).extractLsb' 0 4).toNat ∧ (0x6 : Word).extractLsb' 20 12 = 0) ∧
    6 ≤ ((0xF : Word).extractLsb' 0 4).toNat ∧
    ((0x000FFFF5 : Word).extractLsb' 20 12 = 0 ∧ ((0x000FFFF5 : Word).extractLsb' 0 4).toNat < 6) := by decide

/-- `BadParamChangesOnlyStatus` and the second clause of each command's statement: one past each end of
each range of R84. -/
theorem test_witness_badParam :
    (¬ legal (.acorr 13 640 .b0) ∧ ¬ legal (.acorr 0 0 .b0) ∧ ¬ legal (.acorr 3 2 .b0) ∧ ¬ legal (.acorr 0 641 .b0)) ∧
    (¬ legal (.levdur 0) ∧ ¬ legal (.levdur 13)) ∧ (¬ legal (.k2a 0) ∧ ¬ legal (.k2a 13)) ∧
    (¬ legal (.noise 0 .b0) ∧ ¬ legal (.noise 641 .b0)) ∧
    (¬ legal (.synth 0 6 .b0 .b0) ∧ ¬ legal (.synth 13 6 .b0 .b0) ∧ ¬ legal (.synth 1 0 .b0 .b0) ∧
      ¬ legal (.synth 1 641 .b0 .b0)) := by
  simp [legal]

/-- The first clause of each command's statement: both ends of each range of R84. -/
theorem test_witness_legal :
    (legal (.acorr 0 1 .b0) ∧ legal (.acorr 12 12 .b0) ∧ legal (.acorr 12 640 .b1)) ∧
    (legal (.levdur 1) ∧ legal (.levdur 12)) ∧ (legal (.k2a 1) ∧ legal (.k2a 12)) ∧
    (legal (.noise 1 .b0) ∧ legal (.noise 640 .b1)) ∧
    (legal (.synth 1 1 .b0 .b0) ∧ legal (.synth 12 640 .b1 .b1)) := by
  simp [legal]

/-- A whole buffer of one value. -/
theorem holdsSamples_fill (b : Buf) (v : Half) (l : Nat) :
    holdsSamples { State.reset with mem := writeSamples [] b 0 (List.replicate l v) } b l (fun _ => v.toInt) := by
  intro j hj
  exact ⟨v, by simp [readSample_writeSamples, hj], rfl⟩

/-- `AcorrComputesScaledAutocorrelation`, `AcorrZeroLagIsPositive`, `SynthFiltersTheSamples`: full buffers of
zeros and of the most negative sample. -/
theorem test_witness_samples :
    (∃ s, holdsSamples s .b0 640 (fun _ => 0)) ∧ (∃ s, holdsSamples s .b1 640 (fun _ => -32768)) ∧
    ∃ s, holdsSamples s .b1 1 (fun _ => 7) :=
  ⟨⟨_, holdsSamples_fill .b0 0 640⟩, ⟨_, holdsSamples_fill .b1 0x8000 640⟩, ⟨_, holdsSamples_fill .b1 7 1⟩⟩

/-- `AcorrZeroLagIsPositive`: ACORR gives a next state on such a buffer. -/
theorem test_witness_acorr_next :
    ∃ s t, holdsSamples s .b0 1 (fun _ => 7) ∧ legal (.acorr 0 1 .b0) ∧ exec (.acorr 0 1 .b0) s = .next t :=
  ⟨_, _, holdsSamples_fill .b0 7 1, by simp [legal], rfl⟩

/-- `HardResetRestoresResetState`, `IrqIsEnableAndDone`: a command pending at a reset. -/
theorem test_witness_reset :
    ({ issued 0x32 with schedule := [.reset, .engine] } : State).schedule = .reset :: [.engine] := rfl

/-- `SoftResetKeepsOnlyBuffers`, `CtrlWriteStoresModeBits`, `IrqIsEnableAndDone`: words with and without
bit 1 and bit 0. -/
theorem test_witness_sreset : (0x00000002 : Word)[1] = true ∧ (0xFFFFFFFD : Word)[1] = false ∧
    (0xFFFFFFFE : Word)[0] = false := by decide

/-- `SeedHoldsThirtyOneBits`, `ElementWriteThenRead`, `PlainRegistersReadTheirState`,
`ReadOnlyRegistersIgnoreWrites` and `ReadsHaveNoSideEffect`: an idle machine, and a register that
reads. -/
theorem test_witness_idle : State.reset.status.busy = false ∧ State.reset.awaiting = false ∧
    readRegister State.reset (.k 11) = some 0 ∧
    ∃ t, hostRead 0x016C 0xF State.reset = .next t := by
  exact ⟨rfl, rfl, by decide, ⟨_, rfl⟩⟩

/-- `ElementWriteThenRead`: entries of both buffers that hold a value, at both ends. -/
theorem test_witness_buffer_entries :
    readSample (withBuf .b0 [5]).mem .b0 0 = some 5 ∧
    readSample (writeSample [] .b1 639 0x8000) .b1 639 = some 0x8000 := by decide +kernel

/-- `StatusReadFields`: a state with each result code, read at any time. -/
theorem test_witness_status :
    readRegister (issued 0) .status = some 0x00000001 ∧
    readRegister (complete .ok 0 State.reset) .status = some 0x00000002 ∧
    readRegister (complete .unstable 11 State.reset) .status = some 0x00000B12 ∧
    readRegister (complete .illegal 0 State.reset) .status = some 0x00000022 ∧
    readRegister (complete .badParam 0 State.reset) .status = some 0x00000032 := by decide

/-- `ReadsHaveNoSideEffect`, `ReadOnlyRegistersIgnoreWrites`: while busy, the open registers answer. -/
theorem test_witness_open :
    (issued 0).status.busy = true ∧ readRegister (issued 0) .id = some 0x434E4701 ∧
    (issued 0).readsAs 0x0000 0x434E4701 ∧
    ∃ t, hostWrite 0x37FC 0xF 1 (issued 0) = .next t ∧ t.arch = (issued 0).arch :=
  ⟨rfl, rfl, ⟨_, rfl, rfl, rfl⟩, ⟨_, rfl, rfl⟩⟩

/-- `BusErrorExactly`: each cause alone, and the offsets beside a reserved range. -/
theorem test_witness_busError :
    hostRead 0x0000 0x7 State.reset = .fault .busError ∧ hostRead 0x0002 0xF State.reset = .fault .busError ∧
    (reservedOffset 0x0018 ∧ ¬ reservedOffset 0x0014 ∧ reservedOffset 0x00FC ∧ ¬ reservedOffset 0x0100) ∧
    (reservedOffset 0x1A00 ∧ ¬ reservedOffset 0x19FC ∧ reservedOffset 0xFFFC ∧ ¬ reservedOffset 0x37FC) := by
  refine ⟨rfl, rfl, ?_, ?_⟩ <;> simp [reservedOffset]

/-- `GuardedAccessFaults`, `OnlyObservationEndsTheGuard` and `ObservationDoesEndTheGuard`: busy, and complete but not yet observed; in the
latter each way of ending the guard. -/
theorem test_witness_guard :
    (issued 0).status.busy = true ∧ (issued 0).awaiting = true ∧
    (complete .ok 0 (issued 0)).status.busy = false ∧ (complete .ok 0 (issued 0)).awaiting = true ∧
    (∃ t, step { complete .ok 0 (issued 0) with schedule := [.read 0x0008 0xF] } = .next t ∧ t.awaiting = false) ∧
    (∃ t, step { complete .ok 0 (issued 0) with schedule := [.write 0x0004 0xF 1] } = .next t ∧ t.irq = true ∧
      t.awaiting = false) ∧
    (∃ t, step { complete .ok 0 (issued 0) with schedule := [.reset] } = .next t ∧ t.awaiting = false) ∧
    ∃ t, step { complete .ok 0 (issued 0) with schedule := [.write 0x0004 0xF 2] } = .next t ∧ t.awaiting = false :=
  ⟨rfl, rfl, rfl, rfl, ⟨_, rfl, rfl⟩, ⟨_, rfl, rfl, rfl⟩, ⟨_, rfl, rfl⟩, ⟨_, rfl, rfl⟩⟩

/-- `ObservationDoesEndTheGuard`: irq rises at a CTRL write and at a completion. -/
theorem test_witness_irq_rises :
    (complete .ok 0 (issued 0)).irq = false ∧
    (stagedWord 0 { State.reset with ctrl := ctrlOfWord 1 }).irq = false ∧
    ∃ t, step (stagedWord 0 { State.reset with ctrl := ctrlOfWord 1 }) = .next t ∧ t.irq = true ∧
      t.awaiting = false :=
  ⟨rfl, rfl, ⟨_, rfl, rfl, rfl⟩⟩

/-- `UnwrittenBufferFaults`: nothing is written at reset; one sample short of a frame. -/
theorem test_witness_unwritten :
    readSample State.reset.mem .b1 639 = none ∧ readSample (withBuf .b0 [5]).mem .b0 1 = none ∧
    exec (.acorr 0 2 .b0) (withBuf .b0 [5]) = .fault .unwrittenBuffer :=
  ⟨rfl, by decide +kernel, rfl⟩

/-- `IrqIsEnableAndDone`: the interrupt raised and lowered. -/
theorem test_witness_irq :
    (complete .ok 0 { State.reset with ctrl := ctrlOfWord 1 }).irq = true ∧ (complete .ok 0 State.reset).irq = false ∧
    ∃ t, runWord 0 (issued 0) = .next t := ⟨rfl, rfl, ⟨_, rfl⟩⟩

/-- `NopCompletesWithOk`: NOP issued from reset. -/
theorem test_witness_nop : ∃ t, exec .nop (issue 0 State.reset) = .next t := ⟨_, rfl⟩

/-- `AcorrScaleFormula`: the shortest and the longest frames, zero and not, and the largest scale. -/
theorem test_witness_scale :
    acScale [0] = 0 ∧ acScale [1] = 0 ∧ (List.replicate 640 (-32768 : Int)).length = 640 ∧
    acScale (List.replicate 640 (-32768)) = 9 := by decide +kernel

/-- `LevdurFollowsThePseudocode`: order 12 with no coefficient failing, order 1 failing at once, and order
3 failing at the last (V-LD-17, V-LD-8, V-LD-13). -/
theorem test_witness_levdur :
    (∀ f, f < 12 → ¬ pcFails (withR [32767]) f) ∧ pcFails (withR [100, 100]) 0 ∧
    (pcFails (withR [1000, 900, 700, 900]) 2 ∧ ∀ g, g < 2 → ¬ pcFails (withR [1000, 900, 700, 900]) g) := by
  have h : ∀ f ∈ List.range 12, ¬ 32750 < (pcK (withR [32767]) f).natAbs := by decide +kernel
  have h3 : ∀ g ∈ List.range 2, ¬ 32750 < (pcK (withR [1000, 900, 700, 900]) g).natAbs := by decide +kernel
  refine ⟨fun f hf hp => h f (List.mem_range.2 hf) hp.1, ⟨by decide +kernel, fun _ => rfl⟩,
    ⟨by decide +kernel, fun _ => rfl⟩, fun g hg hp => h3 g (List.mem_range.2 hg) hp.1⟩

/-- `LevdurNeverHidesInstability`: K0CHK = 1 at reset. -/
theorem test_witness_k0chk : State.reset.modes.k0chk = true := rfl

/-- `K2aZeroPaddingIsHarmless`: order 1 padded to order 12 (V-KA-9). -/
theorem test_witness_k2a_padding :
    (∀ (j : Nat) (h : j < 12), 1 ≤ j → j < 12 → (withK [-16384]).k[j] = 0) ∧
    (∃ t, exec (.k2a 1) (withK [-16384]) = .next t) ∧ ∃ u, exec (.k2a 12) (withK [-16384]) = .next u := by
  have hk : ∀ j : Fin 12, 1 ≤ j.val → (withK [-16384]).k[j.val] = 0 := by decide +kernel
  exact ⟨fun j h h1 _ => hk ⟨j, h⟩ h1, ⟨_, rfl⟩, ⟨_, rfl⟩⟩

/-- `NoiseSplits`: one sample, then 639, and 640 at once. -/
theorem test_witness_noise_splits :
    ∃ t u v p, exec (.noise 1 .b0) State.reset = .next t ∧ State.reset.modes = Pending.modes p ∧
      exec (.noise 639 .b0) { t with pending := some p } = .next u ∧ exec (.noise 640 .b0) State.reset = .next v :=
  ⟨_, _, _, ⟨0, State.reset.modes⟩, rfl, rfl, rfl, rfl⟩

/-- `SynthReadsOnlyItsCoefficients`: A[0] and A[2..12] differ (V-SY-12). -/
theorem test_witness_synth_coefficients :
    (∀ (j : Nat) (h : j < 13), 1 ≤ j → j ≤ 1 →
      (writeFrom State.reset.a 0 [9, 0, 777])[j] = State.reset.a[j]) ∧
    ∃ t, exec (.synth 1 1 .b0 .b1) (withBuf .b0 [1000]) = .next t := by
  refine ⟨fun j h h1 h2 => ?_, ⟨_, rfl⟩⟩
  obtain rfl : j = 1 := by omega
  rfl

/-- `SynthZeroPaddingIsHarmless`: A[2..12] = 0. -/
theorem test_witness_synth_padding :
    ∀ (j : Nat) (h : j < 13), 1 < j → (withBuf .b0 [] [4096, -2048]).a[j] = 0 := by
  have ha : ∀ j : Fin 13, 1 < j.val → (withBuf .b0 [] [4096, -2048]).a[j.val] = 0 := by decide +kernel
  exact fun j h hj => ha ⟨j, h⟩ hj

/-- `DivisionTruncatesTowardZero`: each clause (V-PR-2, V-PR-3, V-PR-1). -/
theorem test_witness_division :
    divW32W16 (-5) 0 = 0x7FFFFFFF ∧ divW32W16 (-2147483648) (-1) = -2147483648 ∧ divW32W16 (-7) 2 = -3 := by
  decide +kernel

/-- `SplitKeepsAllButBitZero`, `NormIsTheLargestShift`: the ends of the range (V-PR-11, V-PR-5). -/
theorem test_witness_split :
    split (-2147483648) = ⟨-32768, 0⟩ ∧ split 0x7FFFFFFF = ⟨32767, 32767⟩ ∧ normW32 (-1) = 31 := by decide +kernel

/-- `MaxAbsIsTheClampedMaximum` (V-PR-8). -/
theorem test_witness_maxAbs : maxAbs16 [-32768, 5] = 32767 ∧ maxAbs16 [0] = 0 := by decide

/-- `StepKeepsTheInvariant` and `ExhaustedScheduleLeavesNothingPending`: a pending command satisfies the invariant, and a
step and a run of one step from it give a next state. -/
theorem test_witness_invariant : (issued 0x32).Inv ∧ (∃ t, step (issued 0x32) = .next t) ∧
    ∃ t, Host.Core.run Sys2Proof.core ((issued 0x32).schedule.length + 1) (issued 0x32) = .next t := by
  refine ⟨?_, ⟨_, rfl⟩, ⟨_, rfl⟩⟩
  constructor <;> simp [issued, issue, State.reset, Memory.wf, Memory.wholeSamples, readByte, Status.issued,
    State.irq]

/-- `StepKeepsExtendedMemory` and `UnwrittenEntriesNeverMatter`: a memory with more bytes known, and a step
and a run of one. -/
theorem test_witness_extended :
    Memory.extendedBy (issued 0x32).mem (withBuf .b0 [5]).mem ∧ (∃ t, step (issued 0x32) = .next t) ∧
    ∃ t, Host.Core.run Sys2Proof.core 1 (issued 0x32) = .next t := by
  refine ⟨fun x v h => ?_, ⟨_, rfl⟩, ⟨_, rfl⟩⟩
  simp [issued, issue, State.reset, readByte] at h

/-- `SoftResetForgetsEverythingElse`: two machines that differ, with the same buffers. -/
theorem test_witness_sreset_pair :
    ({ issued 0x32 with schedule := [.write 0x0004 0xF 2] } : State).mem =
      ({ withR [5] with schedule := [.write 0x0004 0xF 2] } : State).mem ∧ (0x2 : Word)[1] = true :=
  ⟨rfl, by decide⟩

/-- `CanonicalFormIsUnique`, `WritesAreIdempotent`: a memory that is not empty and has the canonical
form. -/
theorem test_witness_memory : (withBuf .b1 [5, -5]).mem.wf ∧ (withBuf .b1 [5, -5]).mem.length = 4 := by
  decide +kernel

end Sys2Proof.Tests
end

section
/-! The narrowings and shifts as the spec defines them (00_scope.md R11): each wrap differs from its
argument by a multiple of the modulus, and `asr` is a floor. With the ranges of `wrap32_range` and
`trunc16_range` this fixes every one of them. -/

namespace Sys2Proof.Proofs
open Sys2Proof Sys2Proof.Machine

theorem dvd_wrap32_sub (v : Int) : (2 ^ 32 : Int) ∣ wrap32 v - v :=
  Int.ModEq.dvd (wrap32_emod v).symm

theorem dvd_trunc16_sub (v : Int) : (2 ^ 16 : Int) ∣ trunc16 v - v :=
  Int.ModEq.dvd (trunc16_emod v).symm

/-- "The int32 congruent to v", in the form in which the obligations write an int32's range. -/
theorem wrap32_isInt32Congruent (v : Int) :
    -2147483648 ≤ wrap32 v ∧ wrap32 v ≤ 2147483647 ∧ (2 ^ 32 : Int) ∣ wrap32 v - v :=
  have ⟨lower, upper⟩ := wrap32_range v
  ⟨lower, Int.le_of_lt_add_one upper, dvd_wrap32_sub v⟩

/-- "The int16 congruent to v", in the form in which the obligations write an int16's range. -/
theorem trunc16_isInt16Congruent (v : Int) :
    -32768 ≤ trunc16 v ∧ trunc16 v ≤ 32767 ∧ (2 ^ 16 : Int) ∣ trunc16 v - v :=
  have ⟨lower, upper⟩ := trunc16_range v
  ⟨lower, Int.le_of_lt_add_one upper, dvd_trunc16_sub v⟩

theorem asr_floor (v : Int) (n : Nat) : asr v n * 2 ^ n ≤ v ∧ v < (asr v n + 1) * 2 ^ n :=
  have two_pow_pos : (0 : Int) < 2 ^ n := Int.pow_pos (by decide)
  ⟨Int.ediv_mul_le v two_pow_pos.ne', Int.lt_ediv_add_one_mul_self v two_pow_pos⟩

theorem abs32_of_nonneg {v : Int} (h : 0 ≤ v) : abs32 v = v := if_pos h

theorem abs32_of_neg {v : Int} (h : v < 0) : abs32 v = wrap32 (-v) := if_neg h.not_ge

/-- Settles O48: `shl32` and `abs32` of a negative value are `wrap32` of the exact value, so the
int32 facts are those of `wrap32`; `asr` is the floor by Euclidean division. -/
theorem narrowingsAreTheSpecs : Obligations.NarrowingsAreTheSpecs := by
  intro v n
  refine ⟨wrap32_isInt32Congruent v, trunc16_isInt16Congruent v, asr_floor v n,
    wrap32_isInt32Congruent (v * 2 ^ n), abs32_of_nonneg, fun negative => ?_⟩
  have congruent := wrap32_isInt32Congruent (-v)
  rwa [sub_neg_eq_add, ← abs32_of_neg negative] at congruent

end Sys2Proof.Proofs
end

section
/-! What the writes of each command leave for its completion: whole samples in the canonical memory and
ACSCALE in its range. -/

namespace Sys2Proof.Proofs
open Sys2Proof Sys2Proof.Machine

/-! ### The memory's form -/

/-- An element is written whole: its two bytes become listed together (10_state.md R36). -/
theorem writeSample_wholeSamples {m : Memory} (whole : m.wholeSamples) (b : Buf) (i : Nat) (v : Half) :
    (writeSample m b i v).wholeSamples := by
  intro c j
  by_cases same : sampleAddr c j = sampleAddr b i
  · simp [readByte_writeSample, same]
  · have aligned := sampleAddr_mod b i
    have aligned' := sampleAddr_mod c j
    have lowByte : sampleAddr c j ≠ sampleAddr b i + 1 := by omega
    have highByte : sampleAddr c j + 1 ≠ sampleAddr b i := by omega
    simpa [readByte_writeSample, same, lowByte, highByte] using whole c j

theorem writeSamples_wholeSamples {m : Memory} (whole : m.wholeSamples) (b : Buf) (i : Nat)
    (vs : List Half) : (writeSamples m b i vs).wholeSamples := by
  induction vs generalizing m i with
  | nil => exact whole
  | cons v vs ih => exact ih (writeSample_wholeSamples whole b i v) (i + 1)

@[simp] theorem length_noiseSamples (nidx : Bool) (seed : BitVec 31) (n : Nat) :
    (noiseSamples nidx seed n).length = n := by
  induction n generalizing seed with
  | zero => rfl
  | succ n ih => simp [noiseSamples, ih]

@[simp] theorem length_filterLoop (rnd : Int) (as xs histHi histLo : List Int) :
    (filterLoop rnd as xs histHi histLo).length = xs.length := by
  induction xs generalizing histHi histLo with
  | nil => rfl
  | cons x xs ih => simp [filterLoop, ih]

@[simp] theorem length_synthOutputs (n : Nat) (xs : List Int) (s : State) :
    (synthOutputs n xs s).length = xs.length :=
  length_filterLoop ..

/-! ### The range of ACSCALE (41_autocorrelation.md R121) -/

theorem le_foldl_max_natAbs (xs : List Int) (m : Int) :
    m ≤ xs.foldl (fun m x => max m (x.natAbs : Int)) m := by
  induction xs generalizing m with
  | nil => exact le_rfl
  | cons x xs ih => exact (le_max_left m _).trans (ih _)

theorem maxAbs16_nonneg (xs : List Int) : 0 ≤ maxAbs16 xs :=
  le_min (by decide) (le_foldl_max_natAbs xs 0)

theorem maxAbs16_le (xs : List Int) : maxAbs16 xs ≤ 32767 := min_le_left _ _

theorem sizeInBits_le {n k : Nat} (h : n < 2 ^ k) : sizeInBits n ≤ k := by
  unfold sizeInBits
  split
  · exact Nat.zero_le k
  · next nonzero => exact (Nat.log2_lt nonzero).2 h

/-- A positive value below 2^30 has a redundant sign bit to spare (R103). -/
theorem one_le_normW32 {x : Int} (pos : 0 < x) (small : x < 2 ^ 30) : 1 ≤ normW32 x := by
  have bits : sizeInBits x.toNat ≤ 30 := sizeInBits_le (by omega)
  rw [normW32, if_neg pos.ne', normMagnitude, if_pos pos]
  omega

/-- The squared maximum is below 2^30, so one bit of headroom comes off the ten bits of a length. -/
theorem acScale_le_nine {xs : List Int} (len : xs.length ≤ 640) : acScale xs ≤ 9 := by
  have bits : sizeInBits xs.length ≤ 10 := sizeInBits_le (by omega)
  by_cases zero : maxAbs16 xs = 0
  · simp [acScale, zero]
  · have lower := maxAbs16_nonneg xs
    have upper := maxAbs16_le xs
    have headroom : 1 ≤ normW32 (mul16 (maxAbs16 xs) (maxAbs16 xs)) :=
      one_le_normW32 (by unfold mul16; positivity) (by unfold mul16; nlinarith)
    simp only [acScale, if_neg zero]
    split <;> omega

/-! ### The index of the failing coefficient (42_levinson.md R137) -/

theorem length_le_of_levLoop_unstable {rs rest : List HiLo} {st : LevState} {ks : List Int}
    (h : levLoop rs rest st = .unstable ks) : ks.length ≤ st.ks.length + rest.length := by
  induction rest generalizing rs st with
  | nil => cases h
  | cons ri rest ih =>
    rw [levLoop] at h
    split at h
    · cases h
      simp
    · have := ih h
      simp only [levAdvance, List.length_append, List.length_cons, List.length_nil] at this ⊢
      omega

theorem length_lt_of_levinson_unstable {k0chk : Bool} {rs ks : List Int}
    (h : levinson k0chk rs = .unstable ks) : ks.length < rs.length := by
  have len : (normalizedLags rs).length = rs.length := by simp [normalizedLags]
  unfold levinson at h
  split at h
  · next r0 r1 rest lags =>
    rw [← len, lags]
    split at h
    · cases h
      simp
    · have := length_le_of_levLoop_unstable h
      simp only [firstState, List.length_cons, List.length_nil] at this ⊢
      omega
  · cases h

end Sys2Proof.Proofs
end

section
/-! The invariant, operation by operation: a command's writes keep the part of it that completion does
not set, completion and issue give the rest, and each host transaction keeps it. -/

namespace Sys2Proof.Proofs
open Sys2Proof Sys2Proof.Machine

/-- The part of `State.Inv` that completion leaves to the command's writes: `dataInv_of_inv` and
`DataInv.complete` tie it to the invariant. -/
structure DataInv (s : State) : Prop where
  memory : s.mem.wf
  whole : s.mem.wholeSamples
  acscaleRange : s.acscale.toNat ≤ 9

theorem dataInv_of_inv {s : State} (h : s.Inv) : DataInv s :=
  ⟨h.memory, h.whole, h.acscaleRange⟩

/-- Completion sets everything else of the invariant (60_exceptions.md R200, 46_control.md R193). -/
theorem DataInv.complete {s : State} (h : DataInv s) {code : ResultCode} {f : Nat} (range : f ≤ 11)
    (unstable : code ≠ .unstable → f = 0) : (complete code f s).Inv where
  memory := h.memory
  whole := h.whole
  acscaleRange := h.acscaleRange
  busyPending := rfl
  pendingWord := by simp
  busyStatus := by simp
  failidxUnstable notUnstable := by simp [unstable notUnstable]
  failidxRange := by
    simp only [complete_status, completed_failidx, BitVec.toNat_ofNat]
    omega
  busyAwaiting := by simp
  irqObserved := by simp +contextual [irq_eq]

/-- Every completion but UNSTABLE records FAILIDX 0. -/
theorem DataInv.complete_zero {s : State} (h : DataInv s) (code : ResultCode) :
    (Machine.complete code 0 s).Inv :=
  h.complete (Nat.zero_le 11) fun _ => rfl

/-! ### The writes of each command -/

theorem acorrWrites_dataInv {s : State} (h : DataInv s) (n : Nat) {xs : List Int}
    (len : xs.length ≤ 640) : DataInv (acorrWrites n xs s) where
  memory := h.memory
  whole := h.whole
  acscaleRange := by
    have := acScale_le_nine len
    simp only [acorrWrites_acscale, BitVec.toNat_ofNat]
    omega

theorem k2aWrites_dataInv {s : State} (h : DataInv s) (n : Nat) : DataInv (k2aWrites n s) :=
  ⟨h.memory, h.whole, h.acscaleRange⟩

theorem noiseWrites_dataInv {s : State} (h : DataInv s) {l : Nat} (len : l ≤ 640) (d : Buf) :
    DataInv (noiseWrites l d s) where
  memory := writeSamples_wf h.memory (by simpa using len)
  whole := writeSamples_wholeSamples h.whole _ _ _
  acscaleRange := h.acscaleRange

theorem synthWrites_dataInv {s : State} (h : DataInv s) {ys : List (Int × Int)}
    (len : ys.length ≤ 640) (d : Buf) : DataInv (synthWrites d ys s) where
  memory := writeSamples_wf h.memory (by simpa using len)
  whole := writeSamples_wholeSamples h.whole _ _ _
  acscaleRange := h.acscaleRange

/-- LEVDUR writes neither the memory nor ACSCALE; at most 12 coefficients bound FAILIDX by 11. -/
theorem levdurEnd_inv {s : State} (h : DataInv s) (k0chk : Bool) (n : Nat) :
    (levdurEnd s (levinson k0chk (firstInts s.r n))).Inv := by
  generalize ended : levinson k0chk (firstInts s.r n) = e
  cases e with
  | stable ks as =>
    refine DataInv.complete_zero ?_ .ok
    exact ⟨h.memory, h.whole, h.acscaleRange⟩
  | unstable ks =>
    have fewer : ks.length < min n 13 := by simpa using length_lt_of_levinson_unstable ended
    refine DataInv.complete ?_ (by omega) (absurd rfl)
    exact ⟨h.memory, h.whole, h.acscaleRange⟩

/-! ### The engine's turn -/

/-- Every command ends in a completion over writes that keep `DataInv`. -/
theorem exec_inv {i : Instr} {s t : State} (h : DataInv s) (run : exec i s = .next t) : t.Inv := by
  cases i with
  | nop =>
    cases run
    exact h.complete_zero .ok
  | acorr n l src =>
    obtain ⟨-, rfl⟩ | ⟨-, ⟨-, len⟩, xs, read, rfl⟩ := execAcorr_next run
    · exact h.complete_zero .badParam
    · exact (acorrWrites_dataInv h n (length_of_inputSamples read ▸ len)).complete_zero .ok
  | levdur n =>
    obtain ⟨-, rfl⟩ | ⟨-, rfl⟩ := execLevdur_next run
    · exact h.complete_zero .badParam
    · exact levdurEnd_inv h ..
  | k2a n =>
    obtain ⟨-, rfl⟩ | ⟨-, rfl⟩ := execK2a_next run
    · exact h.complete_zero .badParam
    · exact (k2aWrites_dataInv h n).complete_zero .ok
  | noise l dst =>
    obtain ⟨-, rfl⟩ | ⟨⟨-, len⟩, rfl⟩ := execNoise_next run
    · exact h.complete_zero .badParam
    · exact (noiseWrites_dataInv h len dst).complete_zero .ok
  | synth n l src dst =>
    obtain ⟨-, rfl⟩ | ⟨-, ⟨-, len⟩, xs, read, rfl⟩ := execSynth_next run
    · exact h.complete_zero .badParam
    · have fits : (synthOutputs n xs s).length ≤ 640 := by
        rw [length_synthOutputs, length_of_inputSamples read]
        exact len
      exact (synthWrites_dataInv h fits dst).complete_zero .ok

theorem engineStep_inv {s t : State} (h : s.Inv) (turn : engineStep s = .next t) : t.Inv := by
  obtain ⟨p, -, -, run⟩ | ⟨-, rfl⟩ := engineStep_next turn
  · obtain ⟨i, -, run⟩ | ⟨e, -, rfl⟩ := runWord_next run
    · exact exec_inv (dataInv_of_inv h) run
    · exact (dataInv_of_inv h).complete_zero .illegal
  · exact h

/-! ### Resets and host transactions -/

/-- The reset state over any memory in the canonical form. -/
theorem reset_inv_of_mem {m : Memory} (memory : m.wf) (whole : m.wholeSamples) :
    { State.reset with mem := m }.Inv where
  memory := memory
  whole := whole
  busyPending := rfl
  pendingWord := by simp [State.reset]
  busyStatus := by simp [State.reset]
  failidxUnstable _ := rfl
  failidxRange := Nat.zero_le 11
  acscaleRange := Nat.zero_le 9
  busyAwaiting := by simp [State.reset]
  irqObserved _ := rfl

theorem reset_inv : State.reset.Inv :=
  reset_inv_of_mem reset_mem_wf fun _ _ => rfl

theorem hardReset_inv (s : State) : (hardReset s).Inv := { reset_inv with }

theorem softReset_inv {s : State} (h : s.Inv) : (softReset s).Inv :=
  { reset_inv_of_mem h.memory h.whole with }

/-- An issue fills PENDING with the word of CMD and clears DONE, so irq is low while the host waits
(46_control.md R191). -/
theorem issue_inv {s : State} (h : s.Inv) (w : Word) : (issue w s).Inv where
  memory := h.memory
  whole := h.whole
  busyPending := rfl
  pendingWord := by simp
  busyStatus _ := ⟨rfl, rfl, rfl⟩
  failidxUnstable _ := rfl
  failidxRange := by simp
  acscaleRange := h.acscaleRange
  busyAwaiting _ := rfl
  irqObserved := by simp [irq_eq]

theorem writeCmd_inv {s : State} (h : s.Inv) (v : Word) : (writeCmd v s).Inv := by
  unfold writeCmd
  split
  · exact { h with }
  · exact issue_inv h v

/-- A running command has DONE = 0, so no CTRL write ends its guard; where irq rises, it is observed. -/
theorem writeCtrl_inv {s : State} (h : s.Inv) (v : Word) : (writeCtrl v s).Inv := by
  unfold writeCtrl
  split
  · exact softReset_inv h
  · exact { h with
      busyAwaiting := fun busy => by simp [h.busyAwaiting busy, (h.busyStatus busy).1]
      irqObserved := fun irq => by
        simp only [irq_eq] at irq
        simp [irq] }

/-- Clearing DONE or OVR can only lower irq (10_state.md R26). -/
theorem writeStatus_inv {s : State} (h : s.Inv) (v : Word) :
    { s with status := s.status.written v }.Inv :=
  { h with
    busyStatus := fun busy => by
      obtain ⟨done, result, failidx⟩ := h.busyStatus busy
      simp [done, result, failidx]
    irqObserved := fun irq => h.irqObserved <| by
      simp only [irq_eq, written_done, Bool.and_eq_true] at irq ⊢
      exact ⟨irq.1, irq.2.1⟩ }

theorem writeRegister_inv {s : State} (h : s.Inv) (v : Word) (reg : Register) :
    (writeRegister v s reg).Inv := by
  cases reg with
  | ctrl => exact writeCtrl_inv h v
  | status => exact writeStatus_inv h v
  | cmd => exact writeCmd_inv h v
  | buf b i =>
    exact { h with
      memory := writeSample_wf h.memory i.isLt
      whole := writeSample_wholeSamples h.whole _ _ _ }
  | id | acscale | ntab => exact h
  | seed | r | k | a | fshi | fslo => exact { h with }

theorem hostWrite_inv {x : BitVec 16} {lanes : BitVec 4} {v : Word} {s t : State} (h : s.Inv)
    (write : hostWrite x lanes v s = .next t) : t.Inv := by
  obtain ⟨reg, -, -, rfl⟩ := hostWrite_next write
  exact { writeRegister_inv h v reg with }

/-- A STATUS read ends the wait only with BUSY = 0 (46_control.md R193). -/
theorem observed_inv {s : State} (h : s.Inv) (reg : Register) : (observed reg s).Inv := by
  unfold observed
  split
  · next idle =>
    exact { h with
      busyAwaiting := fun busy => absurd (idle.2.symm.trans busy) Bool.false_ne_true
      irqObserved := fun _ => rfl }
  · exact h

theorem hostRead_inv {x : BitVec 16} {lanes : BitVec 4} {s t : State} (h : s.Inv)
    (read : hostRead x lanes s = .next t) : t.Inv := by
  obtain ⟨reg, w, -, -, -, rfl⟩ := hostRead_next read
  exact observed_inv (s := { s with answer := .data w }) { h with } reg

/-- Settles O54: the events of the schedule one by one; what is left to come is no part of the
invariant. -/
theorem stepKeepsTheInvariant : Obligations.StepKeepsTheInvariant := by
  intro s t h next
  have inv (rest : List Event) : { s with schedule := rest }.Inv := { h with }
  obtain ⟨-, turn⟩ | ⟨rest, -, turn⟩ | ⟨rest, -, rfl⟩ | ⟨x, l, rest, -, read⟩ |
    ⟨x, l, v, rest, -, write⟩ := step_next next
  · exact engineStep_inv h turn
  · exact engineStep_inv (inv rest) turn
  · exact hardReset_inv _
  · exact hostRead_inv (inv rest) read
  · exact hostWrite_inv (inv rest) write

/-- Settles O53: the reset state over the empty memory. -/
theorem resetSatisfiesTheInvariant : Obligations.ResetSatisfiesTheInvariant := reset_inv

end Sys2Proof.Proofs
end

section
/-! The memory's canonical form is determined by what it reads as: its cells are exactly the written
bytes, in the one order there is. -/

namespace Sys2Proof.Proofs
open Sys2Proof Sys2Proof.Machine

/-- No later cell hides a listed one, so the cells are the offsets that read as a value. -/
theorem readByte_eq_some_iff {m : Memory} (rising : m.Pairwise (fun c d => c.1 < d.1)) (x : Nat)
    (v : Byte) : readByte m x = some v ↔ (x, v) ∈ m := by
  induction m with
  | nil => simp [readByte]
  | cons c m ih =>
    obtain ⟨above, rising⟩ := List.pairwise_cons.1 rising
    by_cases first : c.1 = x
    · have later : (x, v) ∉ m := fun mem => (above _ mem).ne first
      simp [readByte, first, later, Prod.ext_iff, eq_comm]
    · have notFirst : (x, v) ≠ c := fun e => first (e ▸ rfl)
      simp [readByte, first, notFirst, ih rising]

/-- Settles O59: two lists with the same cells, both in strictly rising order, are equal. -/
theorem canonicalFormIsUnique : Obligations.CanonicalFormIsUnique := by
  intro m n hm hn alike
  have : Std.Irrefl (fun c d : Host.Cell => c.1 < d.1) := ⟨fun c => Nat.lt_irrefl c.1⟩
  have : Std.Antisymm (fun c d : Host.Cell => c.1 < d.1) := ⟨fun _ _ lt gt => absurd gt lt.asymm⟩
  refine hm.1.eq_of_mem_iff hn.1 fun ⟨x, v⟩ => ?_
  rw [← readByte_eq_some_iff hm.1, ← readByte_eq_some_iff hn.1, alike x]

end Sys2Proof.Proofs
end

section
/-! The register port: the window's map is a bijection between registers and valid offsets (10_state.md
R21), and a transaction at a register's offset reads or writes that register. -/

namespace Sys2Proof.Proofs
open Sys2Proof Sys2Proof.Machine

/-! ### The window's map -/

theorem offset_of_controlRegister {x : Nat} {reg : Register} (h : controlRegister x = some reg) :
    x = reg.offset := by
  unfold controlRegister at h
  split at h <;> cases h <;> rfl

theorem offset_of_arrayIndex {base n x : Nat} {i : Fin n} (h : arrayIndex base n x = some i)
    (aligned : x % 4 = base % 4) : x = base + 4 * i.val := by
  unfold arrayIndex at h
  split at h
  · cases h
    dsimp only
    omega
  · cases h

/-- The converse of `registerAt_offset`: every arm of the map selects only at its register's offset. -/
theorem offset_of_registerAt {x : Nat} {reg : Register} (h : registerAt x = some reg) :
    x = reg.offset := by
  unfold registerAt at h
  split at h
  · next aligned =>
    simp only [Option.or_eq_some_iff, Option.map_eq_some_iff] at h
    obtain h | ⟨-, ⟨i, h, rfl⟩ | ⟨-, ⟨i, h, rfl⟩ | ⟨-, ⟨i, h, rfl⟩ | ⟨-, ⟨i, h, rfl⟩ |
      ⟨-, ⟨i, h, rfl⟩ | ⟨-, ⟨i, h, rfl⟩ | ⟨-, ⟨i, h, rfl⟩ | ⟨-, i, h, rfl⟩⟩⟩⟩⟩⟩⟩⟩ := h
    · exact offset_of_controlRegister h
    all_goals exact offset_of_arrayIndex h aligned
  · cases h

theorem registerAt_eq_some_iff (x : Nat) (reg : Register) :
    registerAt x = some reg ↔ x = reg.offset :=
  ⟨offset_of_registerAt, fun h => h ▸ registerAt_offset reg⟩

/-- Settles O16: each clause is `registerAt_offset` at one register, the last its converse too. -/
theorem windowMapIsTheSpecs : Obligations.WindowMapIsTheSpecs :=
  ⟨⟨registerAt_offset .id, registerAt_offset .ctrl, registerAt_offset .status, registerAt_offset .cmd,
      registerAt_offset .seed, registerAt_offset .acscale⟩,
    fun i => registerAt_offset (.r i), fun i => registerAt_offset (.k i),
    fun i => registerAt_offset (.a i), fun i => registerAt_offset (.fshi i),
    fun i => registerAt_offset (.fslo i), fun i => registerAt_offset (.buf .b0 i),
    fun i => registerAt_offset (.buf .b1 i), fun i => registerAt_offset (.ntab i),
    registerAt_eq_some_iff⟩

/-- The window is 64 KiB (R21). -/
theorem offset_lt (reg : Register) : reg.offset < 2 ^ 16 := by
  cases reg with
  | buf b i => cases b <;> simp only [Register.offset, sampleAddr, bufBase] <;> omega
  | _ => simp only [Register.offset]; omega

/-- A 32-bit transaction at a register's offset selects it (20_memory.md R63). -/
theorem selectRegister_offset (reg : Register) :
    selectRegister (BitVec.ofNat 16 reg.offset) 0xF = some reg := by
  rw [selectRegister, if_pos rfl, BitVec.toNat_ofNat, Nat.mod_eq_of_lt (offset_lt reg),
    registerAt_offset]

/-! ### Transactions at a register -/

/-- R240 lets the host access a register: the register is open, or the engine idle and observed. -/
def accessible (reg : Register) (s : State) : Prop := (reg.guarded && s.guards) = false

theorem accessible_of_open {reg : Register} (h : reg.guarded = false) (s : State) :
    accessible reg s := by
  simp [accessible, h]

theorem accessible_of_idle {s : State} (busy : s.status.busy = false) (awaiting : s.awaiting = false)
    (reg : Register) : accessible reg s := by
  simp [accessible, State.guards, busy, awaiting]

@[simp] theorem observed_answer (reg : Register) (s : State) : (observed reg s).answer = s.answer := by
  unfold observed
  split <;> rfl

@[simp] theorem observed_arch (reg : Register) (s : State) : (observed reg s).arch = s.arch := by
  unfold observed
  split <;> rfl

/-- The answer of the last transaction is no register's value (log 10). -/
theorem readRegister_answer (s : State) (a : Answer) (reg : Register) :
    readRegister { s with answer := a } reg = readRegister s reg := by
  cases reg <;> rfl

/-- A write to a guarded register changes neither BUSY nor `awaiting`. -/
theorem writeRegister_guards {s : State} {reg : Register} (h : reg.guarded = true) (v : Word) :
    (writeRegister v s reg).guards = s.guards := by
  cases reg with
  | id | ctrl | status | cmd | ntab => cases h
  | _ => rfl

theorem accessible_writeRegister {s : State} {reg : Register} (h : accessible reg s) (v : Word) :
    accessible reg (writeRegister v s reg) := by
  cases guarded : reg.guarded with
  | false => exact accessible_of_open guarded _
  | true =>
    unfold accessible at h ⊢
    rwa [writeRegister_guards guarded]

/-- A read transaction answers the register's value and changes nothing (20_memory.md R60). -/
theorem readsAs_offset {s : State} {reg : Register} {w : Word} (h : accessible reg s)
    (value : readRegister s reg = some w) : s.readsAs reg.offset w := by
  unfold accessible at h
  refine ⟨observed reg { s with answer := .data w }, ?_, observed_answer .., observed_arch ..⟩
  rw [hostRead, selectRegister_offset]
  simp only [h, value, Bool.false_eq_true, if_false]

/-- A write transaction does what `writeRegister` does and answers ok (20_memory.md R61). -/
theorem hostWrite_offset {s : State} {reg : Register} (h : accessible reg s) (v : Word) :
    hostWrite (BitVec.ofNat 16 reg.offset) 0xF v s =
      .next { writeRegister v s reg with answer := .ok } := by
  unfold accessible at h
  rw [hostWrite, selectRegister_offset]
  simp only [h, Bool.false_eq_true, if_false]

/-- What a write stores is read back at the same offset. -/
theorem storesAs_offset {s : State} {reg : Register} {v w : Word} (h : accessible reg s)
    (value : readRegister (writeRegister v s reg) reg = some w) :
    s.storesAs reg.offset v (writeRegister v s reg) w :=
  ⟨_, hostWrite_offset h v, rfl, rfl,
    readsAs_offset (s := { writeRegister v s reg with answer := .ok }) (accessible_writeRegister h v)
      ((readRegister_answer ..).trans value)⟩

end Sys2Proof.Proofs
end

section
/-! The obligations about single registers: the bits CTRL and STATUS read as, and what each register of
the window stores of a write. -/

namespace Sys2Proof.Proofs
open Sys2Proof Sys2Proof.Machine

/-! ### Bits of the control registers -/

theorem getLsbD_bitAt {k : Nat} (h : k < 32) (b : Bool) (n : Nat) :
    (bitAt k b).getLsbD n = (b && decide (n = k)) := by
  cases b with
  | false => simp [bitAt]
  | true =>
    simp only [bitAt, if_true, BitVec.getLsbD_ofNat, Nat.testBit_two_pow, Bool.true_and]
    rw [← Bool.decide_and]
    exact decide_eq_decide.2 (by omega)

/-- A number shifted to a field that starts at bit k. -/
theorem getLsbD_ofNat_mul_two_pow (x k n : Nat) :
    (BitVec.ofNat 32 (x * 2 ^ k)).getLsbD n =
      (decide (n < 32) && (decide (k ≤ n) && x.testBit (n - k))) := by
  rw [BitVec.getLsbD_ofNat, Nat.testBit_mul_two_pow]

/-- What a CTRL read returns, bit by bit (10_state.md R23, R24). -/
theorem getLsbD_ctrl_toWord (c : Ctrl) (n : Nat) :
    c.toWord.getLsbD n =
      if n = 0 then c.irqEn else if n = 4 then c.k0chk else if n = 5 then c.arrnd
      else if n = 6 then c.nidx else false := by
  simp only [Ctrl.toWord, BitVec.getLsbD_or, getLsbD_bitAt (show 0 < 32 by decide),
    getLsbD_bitAt (show 4 < 32 by decide), getLsbD_bitAt (show 5 < 32 by decide),
    getLsbD_bitAt (show 6 < 32 by decide)]
  split_ifs with h0 h4 h5 h6 <;> simp [*]

/-- The result code fits its four bits (60_exceptions.md R200). -/
theorem resultCode_toNat_lt (code : ResultCode) : code.toNat < 2 ^ 4 := by
  cases code <;> decide

/-- What a STATUS read returns, bit by bit (10_state.md R25). -/
theorem getLsbD_status_toWord (st : Status) (n : Nat) :
    st.toWord.getLsbD n =
      if n = 0 then st.busy else if n = 1 then st.done else if n = 2 then st.ovr
      else if n < 4 then false else if n < 8 then st.result.toNat.testBit (n - 4)
      else if n < 12 then st.failidx.getLsbD (n - 8) else false := by
  have result (h : 8 ≤ n) : st.result.toNat.testBit (n - 4) = false :=
    Nat.testBit_lt_two_pow ((resultCode_toNat_lt _).trans_le (Nat.pow_le_pow_right (by decide) (by omega)))
  have failidx (h : 12 ≤ n) : st.failidx.toNat.testBit (n - 8) = false :=
    Nat.testBit_lt_two_pow (st.failidx.isLt.trans_le (Nat.pow_le_pow_right (by decide) (by omega)))
  simp only [Status.toWord, BitVec.getLsbD_or, getLsbD_bitAt (show 0 < 32 by decide),
    getLsbD_bitAt (show 1 < 32 by decide), getLsbD_bitAt (show 2 < 32 by decide),
    getLsbD_ofNat_mul_two_pow]
  split_ifs with h0 h1 h2 h4 h8 h12
  · simp [h0]
  · simp [h1]
  · simp [h2]
  · simp [h0, h1, h2, show ¬ 4 ≤ n by omega, show ¬ 8 ≤ n by omega]
  · simp [h0, h1, h2, show n < 32 by omega, show 4 ≤ n by omega, show ¬ 8 ≤ n by omega]
  · simp [h0, h1, h2, show n < 32 by omega, show 8 ≤ n by omega, result, BitVec.getLsbD]
  · simp [h0, h1, h2, show 12 ≤ n by omega, show 8 ≤ n by omega, result, failidx]

/-- Bits 7:4 of STATUS are the number of the result code. -/
theorem status_toWord_result (st : Status) :
    st.toWord.extractLsb' 4 4 = BitVec.ofNat 4 st.result.toNat := by
  refine BitVec.eq_of_getLsbD_eq fun i hi => ?_
  rw [BitVec.getLsbD_extractLsb', getLsbD_status_toWord, BitVec.getLsbD_ofNat]
  simp [hi, show ¬ 4 + i = 1 by omega, show ¬ 4 + i = 2 by omega, show 4 + i < 8 by omega]

theorem status_toWord_failidx (st : Status) : st.toWord.extractLsb' 8 4 = st.failidx := by
  refine BitVec.eq_of_getLsbD_eq fun i hi => ?_
  rw [BitVec.getLsbD_extractLsb', getLsbD_status_toWord]
  simp [hi, show ¬ 8 + i = 1 by omega, show ¬ 8 + i = 2 by omega, show ¬ 8 + i < 4 by omega,
    show 8 + i < 12 by omega]

theorem status_toWord_reserved (st : Status) : st.toWord.extractLsb' 12 20 = 0 := by
  refine BitVec.eq_of_getLsbD_eq fun i hi => ?_
  rw [BitVec.getLsbD_extractLsb', getLsbD_status_toWord]
  simp [show ¬ 12 + i = 1 by omega, show ¬ 12 + i = 2 by omega, show ¬ 12 + i < 4 by omega,
    show ¬ 12 + i < 8 by omega]

/-- A narrow register reads in the low bits of its word. -/
theorem extractLsb'_zeroExtend_low {n : Nat} (x : BitVec n) (le : n ≤ 32) :
    (x.zeroExtend 32).extractLsb' 0 n = x := by
  refine BitVec.eq_of_getLsbD_eq fun i hi => ?_
  simp [hi, show i < 32 by omega]

/-- The bits of its word above a narrow register read 0. -/
theorem extractLsb'_zeroExtend_high {n : Nat} (x : BitVec n) (k : Nat) :
    (x.zeroExtend 32).extractLsb' n k = 0 := by
  refine BitVec.eq_of_getLsbD_eq fun i hi => ?_
  simp

/-! ### What a write does -/

theorem writeCtrl_of_set {v : Word} (h : v[1] = true) (s : State) : writeCtrl v s = softReset s :=
  if_pos h

theorem writeCtrl_of_clear {v : Word} (h : v[1] = false) (s : State) :
    (writeCtrl v s).arch = { s with ctrl := ctrlOfWord v }.arch := by
  rw [writeCtrl, if_neg (by simp [softResetBit, h])]
  rfl

theorem written_eq (st : Status) (v : Word) :
    st.written v = { st with
      done := if v[1] then false else st.done
      ovr := if v[2] then false else st.ovr } := by
  rw [Status.written]
  congr 1
  · cases v[1] <;> simp
  · cases v[2] <;> simp

/-- The registers that are int16 elements the host may write (10_state.md R36). -/
def isElement : Register → Bool
  | .k _ | .a _ | .fshi _ | .fslo _ | .buf _ _ => true
  | _ => false

/-- An element reads as the low half of the last write, sign-extended (R36). -/
theorem readRegister_writeRegister_element {reg : Register} (h : isElement reg = true) (v : Word)
    (s : State) :
    readRegister (writeRegister v s reg) reg = some (elementWord (elementOfWord v)) := by
  cases reg with
  | k | a | fshi | fslo => simp [writeRegister, readRegister]
  | buf b i => simp [writeRegister, readRegister, readSample_writeSample]
  | _ => cases h

theorem storesAs_element {s : State} {reg : Register} (h : accessible reg s)
    (element : isElement reg = true) (v : Word) :
    s.storesAs reg.offset v (writeRegister v s reg) (elementWord (elementOfWord v)) :=
  storesAs_offset h (readRegister_writeRegister_element element v s)

/-- A buffer entry that has a value reads as it, sign-extended (R36). -/
theorem readsAs_sample {s : State} {b : Buf} {i : Fin 640} {h : Half} (access : accessible (.buf b i) s)
    (value : readSample s.mem b i = some h) : s.readsAs (sampleAddr b i) (elementWord h) :=
  readsAs_offset access (by rw [readRegister, value, Option.map_some])

/-- A write to a buffer entry stores it whole and touches no other byte. -/
theorem storesAs_sample {s : State} {b : Buf} {i : Fin 640} (access : accessible (.buf b i) s)
    (v : Word) :
    ∃ m : Memory, s.storesAs (sampleAddr b i) v { s with mem := m } (elementWord (elementOfWord v)) ∧
      readSample m b i = some (elementOfWord v) ∧
      ∀ x : Nat, x ≠ sampleAddr b i → x ≠ sampleAddr b i + 1 → readByte m x = readByte s.mem x := by
  refine ⟨writeSample s.mem b i (elementOfWord v), storesAs_element access rfl v, ?_,
    fun x low high => ?_⟩
  · rw [readSample_writeSample, if_pos rfl]
  · rw [readByte_writeSample, if_neg high, if_neg low]

/-! ### The obligations -/

/-- CTRL after either reset: K0CHK alone is set (R40). -/
theorem reset_reads_ctrl : readRegister State.reset .ctrl = some 0x00000010 := rfl

/-- Settles O13: the single registers by evaluation, the arrays entry by entry. -/
theorem resetRegisterValues : Obligations.ResetRegisterValues := by
  have zeroElement {n : Nat} (i : Fin n) : elementWord (Vector.replicate n (0 : Half))[i] = 0 := by
    simp [elementWord]
  refine ⟨rfl, reset_reads_ctrl, rfl, rfl, rfl, rfl, rfl, fun i => ?_, fun i => ?_, fun i => ?_,
    fun i => ?_, fun i => ?_, fun b i => rfl, fun i => rfl, rfl, rfl⟩
  · simp [readRegister, State.reset]
  all_goals exact congrArg some (zeroElement i)

/-- Settles O17: the write by the value of SRESET, the read bit by bit. -/
theorem ctrlWriteStoresModeBits : Obligations.CtrlWriteStoresModeBits := by
  refine ⟨fun s v => ⟨_, hostWrite_offset (accessible_of_open (reg := .ctrl) rfl s) v,
    writeCtrl_of_clear (s := s), fun set => ?_⟩, fun s => ⟨_, rfl, getLsbD_ctrl_toWord s.ctrl⟩⟩
  simp only [writeRegister, writeCtrl_of_set set]
  exact ⟨rfl, reset_reads_ctrl⟩

/-- Settles O18: STATUS is open to a write at any time. -/
theorem statusWriteClearsFlags : Obligations.StatusWriteClearsFlags := by
  intro s v
  refine ⟨_, hostWrite_offset (accessible_of_open (reg := .status) rfl s) v, ?_⟩
  rw [writeRegister, written_eq]
  rfl

/-- Settles O19: STATUS is open to a read at any time; its word is known bit by bit. -/
theorem statusReadFields : Obligations.StatusReadFields := by
  intro s
  have bit (n : Nat) (h : n < 32) : s.status.toWord[n] = s.status.toWord.getLsbD n :=
    (BitVec.getLsbD_eq_getElem h).symm
  have code (result : ResultCode) (h : s.status.result = result) :
      s.status.toWord.extractLsb' 4 4 = BitVec.ofNat 4 result.toNat :=
    h ▸ status_toWord_result s.status
  refine ⟨s.status.toWord, readsAs_offset (accessible_of_open (reg := .status) rfl s) rfl, ?_, ?_, ?_, ?_,
    code .ok, code .unstable, code .illegal, code .badParam, status_toWord_failidx _,
    status_toWord_reserved _⟩
  all_goals rw [bit, getLsbD_status_toWord]; rfl

/-- Settles O20: SEED is 31 bits wide and zero-extended by a read. -/
theorem seedHoldsThirtyOneBits : Obligations.SeedHoldsThirtyOneBits :=
  ⟨fun _ v busy awaiting =>
      ⟨_, hostWrite_offset (accessible_of_idle busy awaiting .seed) v, rfl⟩,
    fun s => ⟨_, rfl, extractLsb'_zeroExtend_low s.seed (by decide), by simp⟩⟩

/-- Settles O21: reads and writes at a register's offset are those of the register, and a buffer
entry's two bytes are all a write to it touches. -/
theorem elementWriteThenRead : Obligations.ElementWriteThenRead := by
  refine fun s => ⟨fun i => readsAs_offset (accessible_of_open (reg := .ntab i) rfl s) rfl,
    fun busy awaiting v => ?_⟩
  have idle := accessible_of_idle busy awaiting
  exact ⟨fun i => ⟨readsAs_offset (idle (.k i)) rfl, storesAs_element (idle (.k i)) rfl v⟩,
    fun i => ⟨readsAs_offset (idle (.a i)) rfl, storesAs_element (idle (.a i)) rfl v⟩,
    fun i => ⟨readsAs_offset (idle (.fshi i)) rfl, storesAs_element (idle (.fshi i)) rfl v⟩,
    fun i => ⟨readsAs_offset (idle (.fslo i)) rfl, storesAs_element (idle (.fslo i)) rfl v⟩,
    fun i => ⟨fun _ => readsAs_sample (idle (.buf .b0 i)), fun _ => readsAs_sample (idle (.buf .b1 i)),
      storesAs_sample (idle (.buf .b0 i)) v, storesAs_sample (idle (.buf .b1 i)) v⟩⟩

/-- Settles O22: ID is open, ACSCALE and R accessible when idle; each reads as the state's field. -/
theorem plainRegistersReadTheirState : Obligations.PlainRegistersReadTheirState := by
  refine fun s => ⟨readsAs_offset (accessible_of_open (reg := .id) rfl s) rfl, fun busy awaiting => ?_⟩
  have idle := accessible_of_idle busy awaiting
  refine ⟨⟨_, readsAs_offset (idle .acscale) rfl, extractLsb'_zeroExtend_low s.acscale (by decide),
    extractLsb'_zeroExtend_high s.acscale 28⟩,
    fun i => ⟨readsAs_offset (idle (.r i)) rfl, fun v => ?_⟩⟩
  exact storesAs_offset (idle (.r i)) (by simp [readRegister, writeRegister])

/-- Settles O23: each of these registers may be accessed, and `writeRegister` leaves the state alone. -/
theorem readOnlyRegistersIgnoreWrites : Obligations.ReadOnlyRegistersIgnoreWrites := by
  rintro s reg v (rfl | ⟨i, rfl⟩ | ⟨rfl, busy, awaiting⟩)
  · exact ⟨_, hostWrite_offset (accessible_of_open (reg := .id) rfl s) v, rfl, rfl⟩
  · exact ⟨_, hostWrite_offset (accessible_of_open (reg := .ntab i) rfl s) v, rfl, rfl⟩
  · exact ⟨_, hostWrite_offset (accessible_of_idle busy awaiting .acscale) v, rfl, rfl⟩

end Sys2Proof.Proofs
end

section
/-! The obligations about transactions as such (20_memory.md R60 to R65): where a bus error is
answered, that a read changes nothing, and that a repeated write does nothing more. -/

namespace Sys2Proof.Proofs
open Sys2Proof Sys2Proof.Machine

/-! ### Offsets that select no register -/

theorem controlRegister_eq_none_iff {x : Nat} (aligned : x % 4 = 0) :
    controlRegister x = none ↔ 0x14 < x := by
  refine ⟨fun miss => Nat.lt_of_not_le fun inBlock => ?_, controlRegister_of_gt⟩
  have word : x = 0x00 ∨ x = 0x04 ∨ x = 0x08 ∨ x = 0x0C ∨ x = 0x10 ∨ x = 0x14 := by omega
  obtain rfl | rfl | rfl | rfl | rfl | rfl := word <;> cases miss

/-- `arrayIndex_miss` and its converse: an array selects at every offset it spans. -/
theorem arrayIndex_eq_none_iff {base n x : Nat} :
    arrayIndex base n x = none ↔ x < base ∨ base + 4 * n ≤ x := by
  refine ⟨fun miss => ?_, arrayIndex_miss⟩
  unfold arrayIndex at miss
  split at miss
  · cases miss
  · omega

/-- What the control block and the arrays leave of the window's aligned offsets are the ranges of
10_state.md R41. -/
theorem registerAt_eq_none_iff {x : Nat} (inWindow : x < 2 ^ 16) :
    registerAt x = none ↔ x % 4 ≠ 0 ∨ reservedOffset x := by
  unfold registerAt
  split
  · next aligned =>
    simp only [Option.or_eq_none_iff, Option.map_eq_none_iff, controlRegister_eq_none_iff aligned,
      arrayIndex_eq_none_iff, reservedOffset]
    omega
  · next misaligned => simp [misaligned]

theorem selectRegister_eq_none_iff (offset : BitVec 16) (lanes : BitVec 4) :
    selectRegister offset lanes = none ↔
      lanes ≠ 0xF ∨ offset.toNat % 4 ≠ 0 ∨ reservedOffset offset.toNat := by
  unfold selectRegister
  split
  · next allLanes => simp [allLanes, registerAt_eq_none_iff offset.isLt]
  · next narrow => exact iff_of_true rfl (.inl narrow)

/-! ### Bus errors -/

theorem hostRead_busError_iff (offset : BitVec 16) (lanes : BitVec 4) (s : State) :
    hostRead offset lanes s = .fault .busError ↔ selectRegister offset lanes = none := by
  unfold hostRead
  split
  · next unselected => simp [unselected]
  · next reg selected =>
    rw [selected]
    split
    · simp
    · split <;> simp

theorem hostWrite_busError_iff (offset : BitVec 16) (lanes : BitVec 4) (v : Word) (s : State) :
    hostWrite offset lanes v s = .fault .busError ↔ selectRegister offset lanes = none := by
  unfold hostWrite
  split
  · next unselected => simp [unselected]
  · next reg selected =>
    rw [selected]
    split <;> simp

/-- Settles O25: either transaction answers a bus error exactly where no register is selected. -/
theorem busErrorExactly : Obligations.BusErrorExactly := by
  intro x l v s
  rw [hostRead_busError_iff, hostWrite_busError_iff, selectRegister_eq_none_iff]
  exact ⟨Iff.rfl, Iff.rfl⟩

/-! ### Reads -/

/-- Settles O24: an accessible register reads as its value, and the model's record of an observation,
all a read can change besides the answer, is no state of the engine. -/
theorem readsHaveNoSideEffect : Obligations.ReadsHaveNoSideEffect := by
  refine ⟨fun s reg w access value => readsAs_offset ?_ value, fun x l s t read => ?_⟩
  · obtain isOpen | ⟨busy, awaiting⟩ := access
    · obtain rfl | rfl | rfl | rfl | ⟨i, rfl⟩ := isOpen
      all_goals exact accessible_of_open rfl s
    · exact accessible_of_idle busy awaiting reg
  · obtain ⟨reg, w, -, -, -, rfl⟩ := hostRead_next read
    exact observed_arch reg _

/-! ### Repeated writes -/

/-- A second soft reset finds the reset state over the same buffers (70_reset_and_hazards.md R232). -/
theorem softReset_softReset (s : State) : softReset (softReset s) = softReset s := rfl

/-- With bit 1 clear the second write finds the mode bits it stores, and `awaiting` already ended if it
ends it. -/
theorem writeCtrl_writeCtrl (v : Word) (s : State) : writeCtrl v (writeCtrl v s) = writeCtrl v s := by
  cases reset : v[1] with
  | true => rw [writeCtrl_of_set reset, writeCtrl_of_set reset, softReset_softReset]
  | false => simp [writeCtrl, softResetBit, reset]

theorem written_written (st : Status) (v : Word) : (st.written v).written v = st.written v := by
  simp [Status.written]

/-- The second write of an element reads alike at every byte, and the canonical form is unique. -/
theorem writeSample_writeSample {m : Memory} (canonical : m.wf) (b : Buf) {i : Nat} (inBuffer : i < 640)
    (v : Half) : writeSample (writeSample m b i v) b i v = writeSample m b i v := by
  have once : (writeSample m b i v).wf := writeSample_wf canonical inBuffer
  refine canonicalFormIsUnique _ _ (writeSample_wf once inBuffer) once fun x => ?_
  simp only [readByte_writeSample]
  split_ifs <;> rfl

/-- Settles O60: each register's own operation, done twice. -/
theorem writesAreIdempotent : Obligations.WritesAreIdempotent := by
  intro s reg v canonical notCmd
  cases reg with
  | cmd => exact absurd rfl notCmd
  | ctrl => exact writeCtrl_writeCtrl v s
  | status => simp only [writeRegister, written_written]
  | buf b i => simp only [writeRegister, writeSample_writeSample canonical b i.isLt]
  | r | k | a | fshi | fslo => simp [writeRegister]
  | id | acscale | ntab | seed => rfl

end Sys2Proof.Proofs
end

section
/-! The command word as its fields (30_encoding.md R81 to R90). The fields are the digits of the word's
number, so packing them and reading them back are inverse; what decoding forgets is exactly the fields
the opcode ignores. -/

namespace Sys2Proof.Proofs
open Sys2Proof Sys2Proof.Machine Sys2Proof.Laws

/-! ### The fields of a word -/

theorem orderField_lt (w : Word) : orderField w < 16 := BitVec.isLt _

theorem lenField_lt (w : Word) : lenField w < 1024 := BitVec.isLt _

theorem rsvField_eq_zero_iff (w : Word) : rsvField w = 0 ↔ w.extractLsb' 20 12 = 0 :=
  BitVec.toNat_inj (y := 0)

theorem bitOfBuf_injective {b c : Buf} (same : bitOfBuf b = bitOfBuf c) : b = c := by
  cases b <;> cases c <;> trivial

/-- A selector bit as a number, in the form of the other fields. -/
theorem bitOfBuf_bufOfBit_getElem (w : Word) {k : Nat} (h : k < 32) :
    bitOfBuf (bufOfBit w[k]) = (w.extractLsb' k 1).toNat := by
  rw [BitVec.getElem_eq_testBit_toNat, BitVec.extractLsb'_toNat, Nat.shiftRight_eq_div_pow, pow_one,
    ← Nat.toNat_testBit]
  cases w.toNat.testBit k <;> rfl

theorem bitOfBuf_srcField (w : Word) : bitOfBuf (srcField w) = (w.extractLsb' 18 1).toNat :=
  bitOfBuf_bufOfBit_getElem w _

theorem bitOfBuf_dstField (w : Word) : bitOfBuf (dstField w) = (w.extractLsb' 19 1).toNat :=
  bitOfBuf_bufOfBit_getElem w _

theorem toNat_extractLsb' (w : Word) (k n : Nat) :
    (w.extractLsb' k n).toNat = w.toNat / 2 ^ k % 2 ^ n := by
  rw [BitVec.extractLsb'_toNat, Nat.shiftRight_eq_div_pow]

theorem commandWord_toNat {op n l s d : Nat} (hop : op < 16) (hn : n < 16) (hl : l < 1024) (hs : s < 2)
    (hd : d < 2) :
    (commandWord op n l s d).toNat = op + n * 2 ^ 4 + l * 2 ^ 8 + s * 2 ^ 18 + d * 2 ^ 19 := by
  rw [commandWord, BitVec.toNat_ofNat, Nat.mod_eq_of_lt (by omega)]

/-- A command word's operands, from fields that fit; its OP and RSV are `fields_of_commandWord`. -/
theorem operands_of_commandWord {op n l s d : Nat} (hop : op < 16) (hn : n < 16) (hl : l < 1024)
    (hs : s < 2) (hd : d < 2) :
    orderField (commandWord op n l s d) = n ∧ lenField (commandWord op n l s d) = l ∧
      bitOfBuf (srcField (commandWord op n l s d)) = s ∧
      bitOfBuf (dstField (commandWord op n l s d)) = d := by
  simp only [orderField, lenField, bitOfBuf_srcField, bitOfBuf_dstField, toNat_extractLsb',
    commandWord_toNat hop hn hl hs hd]
  refine ⟨?_, ?_, ?_, ?_⟩ <;> omega

/-- A word with RSV = 0 is the command word of its own fields. -/
theorem commandWord_of_fields {w : Word} (rsv : rsvField w = 0) :
    commandWord (opField w) (orderField w) (lenField w) (bitOfBuf (srcField w))
      (bitOfBuf (dstField w)) = w := by
  apply BitVec.eq_of_toNat_eq
  rw [commandWord_toNat (BitVec.isLt _) (BitVec.isLt _) (BitVec.isLt _) (bitOfBuf_lt _) (bitOfBuf_lt _)]
  simp only [rsvField, opField, orderField, lenField, bitOfBuf_srcField, bitOfBuf_dstField,
    toNat_extractLsb'] at rsv ⊢
  omega

/-- Masking a word masks each of its fields. -/
theorem masked_eq_commandWord {w : Word} (rsv : rsvField w = 0) (m : Word) :
    w &&& m = commandWord (opField w &&& opField m) (orderField w &&& orderField m)
      (lenField w &&& lenField m) (bitOfBuf (srcField w) &&& bitOfBuf (srcField m))
      (bitOfBuf (dstField w) &&& bitOfBuf (dstField m)) := by
  have masked (k n : Nat) : ((w &&& m).extractLsb' k n).toNat =
      (w.extractLsb' k n).toNat &&& (m.extractLsb' k n).toNat := by
    rw [BitVec.extractLsb'_and, BitVec.toNat_and]
  have rsvMasked : rsvField (w &&& m) = 0 := by
    rw [rsvField, masked, ← rsvField, rsv, Nat.zero_and]
  rw [← commandWord_of_fields rsvMasked]
  simp only [opField, orderField, lenField, bitOfBuf_srcField, bitOfBuf_dstField, masked]

/-- The bytes of a word are put together again in the window's order (20_memory.md R64). -/
theorem decodeBytes_wordBytes (w : Word) : decodeBytes (wordBytes w) = decodeWord w := by
  have joined :
      w.extractLsb' 24 8 ++ w.extractLsb' 16 8 ++ w.extractLsb' 8 8 ++ w.extractLsb' 0 8 = w := by
    rw [BitVec.extractLsb'_append_extractLsb'_eq_extractLsb' (start₂ := 24) (start₁ := 16) rfl,
      BitVec.extractLsb'_append_extractLsb'_eq_extractLsb' (start₂ := 16) (start₁ := 8) rfl,
      BitVec.extractLsb'_append_extractLsb'_eq_extractLsb' (start₂ := 8) (start₁ := 0) rfl]
    exact BitVec.extractLsb'_eq_self
  rw [wordBytes, decodeBytes, joined]

/-! ### The decoder -/

theorem decodeWord_of_rsv_zero {w : Word} (rsv : rsvField w = 0) :
    decodeWord w = decodeOpcode w (opField w) := if_pos rsv

theorem decodeWord_of_rsv_ne_zero {w : Word} (rsv : rsvField w ≠ 0) :
    decodeWord w = .error .reservedBits := if_neg rsv

theorem decodeOpcode_of_lt (w : Word) {op : Nat} (h : op < 6) : ∃ i, decodeOpcode w op = .ok i := by
  match op with
  | 0 | 1 | 2 | 3 | 4 | 5 => exact ⟨_, rfl⟩

theorem decodeOpcode_of_ge (w : Word) {op : Nat} (h : 6 ≤ op) :
    decodeOpcode w op = .error .reservedOpcode := by
  match op with
  | _ + 6 => rfl

/-- What a word decodes to fits the fields it was read from. -/
theorem wf_of_decodeOpcode {w : Word} {op : Nat} {i : Instr} (h : decodeOpcode w op = .ok i) :
    i.wf = true := by
  have order : orderFits (orderField w) = true := decide_eq_true (orderField_lt w)
  have len : lenFits (lenField w) = true := decide_eq_true (lenField_lt w)
  unfold decodeOpcode at h
  split at h <;> cases h <;> simp [Instr.wf, order, len]

/-- What a word decodes to is encoded as the word with the ignored fields masked off: a used field
stands under ones, an ignored field under zeros, as each opcode's `show` writes its mask out. -/
theorem encode_of_decodeOpcode {w : Word} {i : Instr} (rsv : rsvField w = 0)
    (h : decodeOpcode w (opField w) = .ok i) : encode i = w &&& usedMask i := by
  have order : orderField w &&& 15 = orderField w :=
    Nat.and_two_pow_sub_one_of_lt_two_pow (n := 4) (orderField_lt w)
  have len : lenField w &&& 1023 = lenField w :=
    Nat.and_two_pow_sub_one_of_lt_two_pow (n := 10) (lenField_lt w)
  have sel (b : Buf) : bitOfBuf b &&& 1 = bitOfBuf b :=
    Nat.and_two_pow_sub_one_of_lt_two_pow (n := 1) (bitOfBuf_lt b)
  rw [masked_eq_commandWord rsv]
  unfold decodeOpcode at h
  split at h
  · next op =>
    cases h
    rw [usedMask]
    show _ = commandWord (opField w &&& 15) (orderField w &&& 0) (lenField w &&& 0)
      (bitOfBuf (srcField w) &&& 0) (bitOfBuf (dstField w) &&& 0)
    simp only [op, Nat.reduceAnd, Nat.and_zero, encode]
  · next op =>
    cases h
    rw [usedMask]
    show _ = commandWord (opField w &&& 15) (orderField w &&& 15) (lenField w &&& 1023)
      (bitOfBuf (srcField w) &&& 1) (bitOfBuf (dstField w) &&& 0)
    simp only [op, order, len, sel, Nat.reduceAnd, Nat.and_zero, encode]
  · next op =>
    cases h
    rw [usedMask]
    show _ = commandWord (opField w &&& 15) (orderField w &&& 15) (lenField w &&& 0)
      (bitOfBuf (srcField w) &&& 0) (bitOfBuf (dstField w) &&& 0)
    simp only [op, order, Nat.reduceAnd, Nat.and_zero, encode]
  · next op =>
    cases h
    rw [usedMask]
    show _ = commandWord (opField w &&& 15) (orderField w &&& 15) (lenField w &&& 0)
      (bitOfBuf (srcField w) &&& 0) (bitOfBuf (dstField w) &&& 0)
    simp only [op, order, Nat.reduceAnd, Nat.and_zero, encode]
  · next op =>
    cases h
    rw [usedMask]
    show _ = commandWord (opField w &&& 15) (orderField w &&& 0) (lenField w &&& 1023)
      (bitOfBuf (srcField w) &&& 0) (bitOfBuf (dstField w) &&& 1)
    simp only [op, len, sel, Nat.reduceAnd, Nat.and_zero, encode]
  · next op =>
    cases h
    rw [usedMask]
    show _ = commandWord (opField w &&& 15) (orderField w &&& 15) (lenField w &&& 1023)
      (bitOfBuf (srcField w) &&& 1) (bitOfBuf (dstField w) &&& 1)
    simp only [op, order, len, sel, Nat.reduceAnd, encode]
  · cases h

/-- The word of a command has its opcode in OP and 0 in RSV. -/
theorem encodesOpcode : (i : Instr) → EncodesOpcode.Statement i
  | .nop => EncodesOpcode.nop
  | .acorr n l src => EncodesOpcode.acorr n l src
  | .levdur n => EncodesOpcode.levdur n
  | .k2a n => EncodesOpcode.k2a n
  | .noise l dst => EncodesOpcode.noise l dst
  | .synth n l src dst => EncodesOpcode.synth n l src dst

/-- Read with its own opcode, the word of a command gives back the operands that were put in. -/
theorem decodeOpcode_encode {i : Instr} (wf : i.wf = true) :
    decodeOpcode (encode i) (opcodeOf i) = .ok i := by
  cases i with
  | nop => rfl
  | acorr n l src =>
    simp only [Instr.wf, orderFits, lenFits, Bool.and_eq_true, decide_eq_true_eq] at wf
    obtain ⟨hn, hl⟩ := wf
    obtain ⟨order, len, source, -⟩ :=
      operands_of_commandWord (op := 1) (by decide) hn hl (bitOfBuf_lt src) Nat.zero_lt_two
    simp only [encode, opcodeOf, decodeOpcode, order, len, bitOfBuf_injective source]
  | levdur n =>
    simp only [Instr.wf, orderFits, decide_eq_true_eq] at wf
    obtain ⟨order, -⟩ := operands_of_commandWord (op := 2) (l := 0) (by decide) wf (by decide)
      Nat.zero_lt_two Nat.zero_lt_two
    simp only [encode, opcodeOf, decodeOpcode, order]
  | k2a n =>
    simp only [Instr.wf, orderFits, decide_eq_true_eq] at wf
    obtain ⟨order, -⟩ := operands_of_commandWord (op := 3) (l := 0) (by decide) wf (by decide)
      Nat.zero_lt_two Nat.zero_lt_two
    simp only [encode, opcodeOf, decodeOpcode, order]
  | noise l dst =>
    simp only [Instr.wf, lenFits, decide_eq_true_eq] at wf
    obtain ⟨-, len, -, destination⟩ := operands_of_commandWord (op := 4) (n := 0) (by decide)
      (by decide) wf Nat.zero_lt_two (bitOfBuf_lt dst)
    simp only [encode, opcodeOf, decodeOpcode, len, bitOfBuf_injective destination]
  | synth n l src dst =>
    simp only [Instr.wf, orderFits, lenFits, Bool.and_eq_true, decide_eq_true_eq] at wf
    obtain ⟨hn, hl⟩ := wf
    obtain ⟨order, len, source, destination⟩ :=
      operands_of_commandWord (op := 5) (by decide) hn hl (bitOfBuf_lt src) (bitOfBuf_lt dst)
    simp only [encode, opcodeOf, decodeOpcode, order, len, bitOfBuf_injective source,
      bitOfBuf_injective destination]

theorem decodeWord_encode {i : Instr} (wf : i.wf = true) : decodeWord (encode i) = .ok i := by
  obtain ⟨op, rsv⟩ := encodesOpcode i wf
  rw [decodeWord_of_rsv_zero rsv, op, decodeOpcode_encode wf]

/-! ### Running a word -/

theorem runWord_of_decoded {w : Word} {i : Instr} (h : decodeWord w = .ok i) (s : State) :
    runWord w s = exec i s := by
  rw [runWord, h]

theorem runWord_of_illegal {w : Word} {e : DecodeError} (h : decodeWord w = .error e) (s : State) :
    runWord w s = .next (complete .illegal 0 s) := by
  rw [runWord, h]

/-- Operands outside the ranges of R84 complete with BAD_PARAM and write nothing (60_exceptions.md
R202). -/
theorem exec_of_not_legal {i : Instr} (illegal : ¬ legal i) (s : State) :
    exec i s = .next (complete .badParam 0 s) := by
  cases i with
  | nop => exact absurd trivial illegal
  | acorr n l src => exact if_neg (by simpa [legal, lagsLegal, lenLegal] using illegal)
  | levdur n => exact if_neg (by simpa [legal, orderLegal] using illegal)
  | k2a n => exact if_neg (by simpa [legal, orderLegal] using illegal)
  | noise l dst => exact if_neg (by simpa [legal, lenLegal] using illegal)
  | synth n l src dst => exact if_neg (by simpa [legal, orderLegal, lenLegal] using illegal)

/-! ### The obligations -/

/-- Settles O2: the fields of a command word are read back as they were packed, and the bytes of a word
join to the word. -/
theorem decodeEncodeRoundTrip : Obligations.DecodeEncodeRoundTrip :=
  fun _ wf => ⟨decodeWord_encode wf, (decodeBytes_wordBytes _).trans (decodeWord_encode wf)⟩

/-- Settles O3: a word that decodes has RSV = 0, so the mask decides each field. -/
theorem decodedWordIsItsEncoding : Obligations.DecodedWordIsItsEncoding := by
  intro w i decoded
  by_cases rsv : rsvField w = 0
  · rw [decodeWord_of_rsv_zero rsv] at decoded
    exact ⟨wf_of_decodeOpcode decoded, encode_of_decodeOpcode rsv decoded⟩
  · rw [decodeWord_of_rsv_ne_zero rsv] at decoded
    cases decoded

/-- Settles O4: the three cases of R87, RSV before OP. -/
theorem illegalWordsExactly : Obligations.IllegalWordsExactly := by
  intro w
  rw [← opField, Ne, ← rsvField_eq_zero_iff]
  by_cases rsv : rsvField w = 0
  · rw [decodeWord_of_rsv_zero rsv]
    obtain known | reserved := Nat.lt_or_ge (opField w) 6
    · obtain ⟨i, decoded⟩ := decodeOpcode_of_lt w known
      simp [rsv, decoded, known]
    · simp [rsv, decodeOpcode_of_ge w reserved, reserved]
  · simp [rsv, decodeWord_of_rsv_ne_zero rsv]

/-- Settles O1: a row that names a command is the round trip of O2, any other is a word's decoding and
the rule for how such a word completes. -/
theorem specEncodingExamples : Obligations.SpecEncodingExamples := by
  have row {w : Word} {i : Instr} (wf : i.wf = true) (word : encode i = w) :
      encode i = w ∧ decodeWord w = .ok i := ⟨word, word ▸ decodeWord_encode wf⟩
  have badParam {w : Word} {i : Instr} (decoded : decodeWord w = .ok i) (illegal : ¬ legal i)
      (s : State) : decodeWord w = .ok i ∧ runWord w s = .next (complete .badParam 0 s) :=
    ⟨decoded, (runWord_of_decoded decoded s).trans (exec_of_not_legal illegal s)⟩
  refine ⟨row rfl rfl, row rfl rfl, row rfl rfl, row rfl rfl, row rfl rfl, row rfl rfl,
    row rfl rfl, row rfl rfl, row rfl rfl, row rfl rfl, row rfl rfl,
    runWord_of_illegal (e := .reservedBits) rfl, runWord_of_illegal (e := .reservedOpcode) rfl,
    badParam rfl ?_, badParam rfl ?_, badParam rfl ?_, badParam rfl ?_, rfl⟩
  all_goals simp [legal]

end Sys2Proof.Proofs
end

section
/-! The primitives of 40_primitives.md: the bit length, normalization, the clamped maximum, the hi/low
split and the two divisions (R102 to R107). -/

namespace Sys2Proof.Proofs
open Sys2Proof Sys2Proof.Machine

/-! ### Narrowing -/

theorem wrap32_eq_self_iff {v : Int} : wrap32 v = v ↔ -2147483648 ≤ v ∧ v < 2147483648 where
  mp fixed := fixed ▸ wrap32_range v
  mpr := fun ⟨lower, upper⟩ => wrap32_of_range lower upper

theorem wrap32_eq_zero_of_dvd {v : Int} (h : (2 ^ 32 : Int) ∣ v) : wrap32 v = 0 := by
  have range := wrap32_range v
  have congruent := wrap32_emod v
  omega

/-! ### The bit length (R104) -/

theorem lt_two_pow_sizeInBits (n : Nat) : n < 2 ^ sizeInBits n := by
  unfold sizeInBits
  split
  · next zero => simp [zero]
  · exact Nat.lt_log2_self

theorem two_pow_sizeInBits_pred_le {n : Nat} (nonzero : n ≠ 0) : 2 ^ (sizeInBits n - 1) ≤ n := by
  rw [sizeInBits, if_neg nonzero]
  exact Nat.log2_self_le nonzero

theorem sizeInBits_le_iff {n k : Nat} : sizeInBits n ≤ k ↔ n < 2 ^ k where
  mp bits := (lt_two_pow_sizeInBits n).trans_le (Nat.pow_le_pow_right Nat.zero_lt_two bits)
  mpr := sizeInBits_le

/-- Settles O50: the bit length of n > 0 is one more than its binary logarithm. -/
theorem sizeInBitsIsTheBitLength : Obligations.SizeInBitsIsTheBitLength :=
  fun n => ⟨lt_two_pow_sizeInBits n, two_pow_sizeInBits_pred_le, fun zero => if_pos zero⟩

/-! ### Normalization (R103) -/

/-- The magnitude of a negative x is its complement, so it fits k bits exactly when x fits a sign bit
and k bits. -/
theorem normMagnitude_lt_two_pow_iff {x : Int} {k : Nat} :
    normMagnitude x < 2 ^ k ↔ -2 ^ k ≤ x ∧ x < 2 ^ k := by
  have two_pow_pos : (0 : Int) < 2 ^ k := Int.pow_pos (by decide)
  unfold normMagnitude
  split <;> zify <;> omega

theorem normW32_eq_sub {x : Int} (nonzero : x ≠ 0) :
    normW32 x = 31 - sizeInBits (normMagnitude x) := by
  rw [normW32, if_neg nonzero]
  omega

theorem normW32_le (x : Int) : normW32 x ≤ 31 := by
  unfold normW32
  split <;> omega

/-- A shift by at most 31 is exact when x, with its sign bit, leaves that many of the 32 bits free. -/
theorem shl32_eq_mul_iff_fits {x : Int} {m : Nat} (small : m ≤ 31) :
    shl32 x m = x * 2 ^ m ↔ -2 ^ (31 - m) ≤ x ∧ x < 2 ^ (31 - m) := by
  have two_pow_pos : (0 : Int) < 2 ^ m := Int.pow_pos (by decide)
  have cut : (2147483648 : Int) = 2 ^ (31 - m) * 2 ^ m := by
    rw [← pow_add, Nat.sub_add_cancel small]
    rfl
  rw [shl32, wrap32_eq_self_iff, cut, ← neg_mul, mul_le_mul_iff_left₀ two_pow_pos,
    mul_lt_mul_iff_left₀ two_pow_pos]

/-- A shift by 32 or more moves every bit out. -/
theorem shl32_of_32_le (x : Int) {m : Nat} (large : 32 ≤ m) : shl32 x m = 0 :=
  wrap32_eq_zero_of_dvd (dvd_mul_of_dvd_right (pow_dvd_pow 2 large) x)

/-- The shifts that keep a nonzero int32 exact are those up to `normW32`. -/
theorem shl32_eq_mul_iff_le_normW32 {x : Int} (lower : -2147483648 ≤ x) (upper : x ≤ 2147483647)
    (nonzero : x ≠ 0) {m : Nat} : shl32 x m = x * 2 ^ m ↔ m ≤ normW32 x := by
  obtain small | large := Nat.lt_or_ge m 32
  · have bits : sizeInBits (normMagnitude x) ≤ 31 :=
      sizeInBits_le_iff.2 (normMagnitude_lt_two_pow_iff.2 (by omega))
    rw [shl32_eq_mul_iff_fits (by omega), ← normMagnitude_lt_two_pow_iff, ← sizeInBits_le_iff,
      normW32_eq_sub nonzero]
    omega
  · have inexact : shl32 x m ≠ x * 2 ^ m := by
      rw [shl32_of_32_le x large]
      exact (mul_ne_zero nonzero (by positivity)).symm
    have := normW32_le x
    exact iff_of_false inexact (by omega)

/-- Settles O49: a shift is exact up to `normW32` and not beyond. -/
theorem normIsTheLargestShift : Obligations.NormIsTheLargestShift := by
  refine ⟨if_pos rfl, fun x lower upper nonzero => ⟨normW32_le x, ?_, fun m larger => ?_⟩⟩
  · exact (shl32_eq_mul_iff_le_normW32 lower upper nonzero).2 le_rfl
  · exact mt (shl32_eq_mul_iff_le_normW32 lower upper nonzero).1 larger.not_ge

/-! ### The clamped maximum (R105) -/

theorem natAbs_le_foldl_max {xs : List Int} {v : Int} (mem : v ∈ xs) (m : Int) :
    (v.natAbs : Int) ≤ xs.foldl (fun m x => max m (x.natAbs : Int)) m := by
  induction xs generalizing m with
  | nil => cases mem
  | cons x xs ih =>
    obtain rfl | later := List.mem_cons.1 mem
    · exact (le_max_right m _).trans (le_foldl_max_natAbs xs _)
    · exact ih later _

/-- The running maximum is its start or the magnitude of an entry. -/
theorem foldl_max_natAbs_attained (xs : List Int) (m : Int) :
    xs.foldl (fun m x => max m (x.natAbs : Int)) m = m ∨
      ∃ v ∈ xs, xs.foldl (fun m x => max m (x.natAbs : Int)) m = v.natAbs := by
  induction xs generalizing m with
  | nil => exact .inl rfl
  | cons x xs ih =>
    obtain start | ⟨v, mem, eq⟩ := ih (max m x.natAbs)
    · obtain old | new := max_choice m (x.natAbs : Int)
      · exact .inl (start.trans old)
      · exact .inr ⟨x, List.mem_cons_self, start.trans new⟩
    · exact .inr ⟨v, List.mem_cons_of_mem x mem, eq⟩

theorem min_natAbs_le_maxAbs16 {xs : List Int} {v : Int} (mem : v ∈ xs) :
    min 32767 (v.natAbs : Int) ≤ maxAbs16 xs :=
  min_le_min_left _ (natAbs_le_foldl_max mem 0)

/-- The start 0 of the running maximum is below every magnitude, so an entry of a non-empty list attains
it. -/
theorem maxAbs16_attained {xs : List Int} (nonempty : xs ≠ []) :
    ∃ v ∈ xs, maxAbs16 xs = min 32767 (v.natAbs : Int) := by
  obtain zero | ⟨v, mem, eq⟩ := foldl_max_natAbs_attained xs 0
  · obtain ⟨v, mem⟩ := List.exists_mem_of_ne_nil xs nonempty
    have bound := natAbs_le_foldl_max mem 0
    exact ⟨v, mem, by rw [maxAbs16]; omega⟩
  · exact ⟨v, mem, by rw [maxAbs16, eq]⟩

/-- Settles O51: the running maximum bounds every magnitude and, started at 0, is one of them. -/
theorem maxAbsIsTheClampedMaximum : Obligations.MaxAbsIsTheClampedMaximum :=
  fun _ nonempty => ⟨fun _ mem => min_natAbs_le_maxAbs16 mem, maxAbs16_attained nonempty⟩

/-! ### The hi/low split (R106) -/

section Halves
variable {x : Int} (lower : -2147483648 ≤ x) (upper : x ≤ 2147483647)
include lower upper

theorem hi16_eq_ediv : hi16 x = x / 65536 :=
  trunc16_of_range (v := x / 65536) (by omega) (by omega)

theorem lo16_eq_emod_ediv : lo16 x = x % 65536 / 2 := by
  have low : x - x / 65536 * 65536 = x % 65536 := by omega
  rw [lo16, hi16_eq_ediv lower upper, low, wrap32_of_range (by omega) (by omega)]
  exact trunc16_of_range (v := x % 65536 / 2) (by omega) (by omega)

theorem join_halves : join (hi16 x) (lo16 x) = x - x % 2 := by
  have digits : x / 65536 * 65536 + x % 65536 / 2 * 2 = x - x % 2 := by omega
  rw [join, hi16_eq_ediv lower upper, lo16_eq_emod_ediv lower upper, digits]
  exact wrap32_of_range (by omega) (by omega)

end Halves

/-- Settles O52: the halves of an int32 need no narrowing, and only bit 0 is in neither. -/
theorem splitKeepsAllButBitZero : Obligations.SplitKeepsAllButBitZero := by
  refine ⟨fun x lower upper => ?_, fun h l => ?_⟩
  · have low := lo16_eq_emod_ediv lower upper
    exact ⟨hi16_eq_ediv lower upper, low, by omega, by omega, join_halves lower upper⟩
  · obtain ⟨lower, upper, congruent⟩ := wrap32_isInt32Congruent (h * 65536 + l * 2)
    exact ⟨lower, upper, Int.emod_eq_zero_of_dvd congruent⟩

/-! ### Division (R102) -/

theorem divW32W16_zero (num : Int) : divW32W16 num 0 = 0x7FFFFFFF := rfl

/-- The remainder of a truncated division has the sign of the dividend or is 0. -/
theorem mul_tmod_nonneg (a b : Int) : 0 ≤ a * Int.tmod a b := by
  obtain nonneg | neg := Int.le_total 0 a
  · exact mul_nonneg nonneg (Int.tmod_nonneg b nonneg)
  · have remainder := Int.tmod_nonneg b (neg_nonneg.2 neg)
    rw [Int.neg_tmod, neg_nonneg] at remainder
    exact mul_nonneg_of_nonpos_of_nonpos neg remainder

theorem natAbs_tmod_lt (a : Int) {b : Int} (nonzero : b ≠ 0) :
    (Int.tmod a b).natAbs < b.natAbs := by
  rw [Int.natAbs_tmod]
  exact Nat.mod_lt _ (Int.natAbs_pos.2 nonzero)

theorem natAbs_tdiv_mul_le (a b : Int) : (Int.tdiv a b * b).natAbs ≤ a.natAbs := by
  rw [Int.natAbs_mul, Int.natAbs_tdiv]
  exact Nat.div_mul_le_self _ _

/-- The quotient 2^31 needs all of the magnitude of -2^31, so the divisor -1; no other quotient leaves
int32. -/
theorem divW32W16_eq_tdiv {num den : Int} (lower : -2147483648 ≤ num) (upper : num ≤ 2147483647)
    (nonzero : den ≠ 0) (noOverflow : ¬ (num = -2147483648 ∧ den = -1)) :
    divW32W16 num den = Int.tdiv num den := by
  have bound : (Int.tdiv num den).natAbs ≤ num.natAbs := by
    rw [Int.natAbs_tdiv]
    exact Nat.div_le_self _ _
  have inRange : Int.tdiv num den ≠ 2147483648 := by
    intro overflow
    have small := natAbs_tmod_lt num nonzero
    have decomposition := Int.tmod_add_mul_tdiv num den
    rw [overflow] at decomposition
    omega
  rw [divW32W16, if_neg nonzero]
  exact wrap32_of_range (by omega) (by omega)

/-- Settles O46: outside the two special cases the wrap does nothing, and the facts are those of the
truncated quotient and its remainder. -/
theorem divisionTruncatesTowardZero : Obligations.DivisionTruncatesTowardZero := by
  intro num den lower upper _ _
  refine ⟨?zeroDivisor, ?overflow, fun nonzero noOverflow => ?truncated⟩
  case zeroDivisor =>
    rintro rfl
    exact divW32W16_zero num
  case overflow =>
    rintro rfl rfl
    rfl
  case truncated =>
    have remainder : num - Int.tdiv num den * den = Int.tmod num den := by
      rw [Int.tmod_def, mul_comm]
    rw [divW32W16_eq_tdiv lower upper nonzero noOverflow, remainder]
    exact ⟨natAbs_tdiv_mul_le num den, natAbs_tmod_lt num nonzero, mul_tmod_nonneg num den⟩

/-! ### The hi/low division (R107) -/

/-- The model's stages are the lines of the pseudocode, in its order. -/
theorem divHiLo_eq_pcDivHiLo (num hi lo : Int) :
    divHiLo num { hi := hi, lo := lo } = pcDivHiLo num hi lo := by
  simp only [divHiLo, pcDivHiLo, HiLo.mul, recipRefined, newtonResidual, recipEstimate, divW32W16, mul16,
    split_hi, split_lo]

/-- The saturated quotient 2^31 - 1 has its low sixteen bits set. -/
theorem recipEstimate_zero : recipEstimate 0 = -1 := by
  rw [recipEstimate, divW32W16_zero]
  rfl

/-- Settles O47: stage by stage the division is its pseudocode; the examples are evaluated. -/
theorem divHiLoFollowsThePseudocode : Obligations.DivHiLoFollowsThePseudocode := by
  refine ⟨divHiLo_eq_pcDivHiLo, recipEstimate_zero, ?_⟩
  decide

end Sys2Proof.Proofs
end

section
/-! ACORR's scale and its sums (41_autocorrelation.md R121 to R124). The scale leaves every product small
enough for the sum of a whole frame, and the largest square big enough to stay above 0. -/

namespace Sys2Proof.Proofs
open Sys2Proof Sys2Proof.Machine

/-! ### The largest square of a frame -/

/-- The clamp at 32767 makes no nonzero maximum 0. -/
theorem maxAbs16_eq_zero_iff {xs : List Int} : maxAbs16 xs = 0 ↔ ∀ v ∈ xs, v = 0 where
  mp zero v mem := by
    have := min_natAbs_le_maxAbs16 mem
    omega
  mpr zero := by
    by_cases empty : xs = []
    · rw [empty]; rfl
    · obtain ⟨v, mem, attained⟩ := maxAbs16_attained empty
      rw [attained, zero v mem]; rfl

/-- `normW32` places a positive int32 between two powers of two (40_primitives.md R103). -/
theorem normW32_bounds {x : Int} (pos : 0 < x) (upper : x < 2 ^ 31) :
    2 ^ (30 - normW32 x) ≤ x ∧ x < 2 ^ (31 - normW32 x) := by
  have magnitude : normMagnitude x = x.toNat := if_pos pos
  have fits : x.toNat < 2 ^ sizeInBits x.toNat := lt_two_pow_sizeInBits _
  have tight : 2 ^ (sizeInBits x.toNat - 1) ≤ x.toNat := two_pow_sizeInBits_pred_le (by omega)
  have bits : sizeInBits x.toNat ≤ 31 := sizeInBits_le (by omega)
  rw [normW32_eq_sub pos.ne', magnitude, show 31 - (31 - sizeInBits x.toNat) = sizeInBits x.toNat by omega,
    show 30 - (31 - sizeInBits x.toNat) = sizeInBits x.toNat - 1 by omega]
  zify at fits tight
  rw [Int.toNat_of_nonneg pos.le] at fits tight
  exact ⟨tight, fits⟩

theorem maxAbs16_sq_lt (xs : List Int) : maxAbs16 xs * maxAbs16 xs < 2 ^ 30 := by
  nlinarith [maxAbs16_nonneg xs, maxAbs16_le xs]

section LargestSquare
variable {xs : List Int} (nonzero : maxAbs16 xs ≠ 0)
include nonzero

theorem maxAbs16_sq_pos : 0 < maxAbs16 xs * maxAbs16 xs := mul_self_pos.2 nonzero

theorem one_le_normW32_maxAbs16_sq : 1 ≤ normW32 (maxAbs16 xs * maxAbs16 xs) :=
  one_le_normW32 (maxAbs16_sq_pos nonzero) (maxAbs16_sq_lt xs)

theorem normW32_maxAbs16_sq_bounds :
    2 ^ (30 - normW32 (maxAbs16 xs * maxAbs16 xs)) ≤ maxAbs16 xs * maxAbs16 xs ∧
      maxAbs16 xs * maxAbs16 xs < 2 ^ (31 - normW32 (maxAbs16 xs * maxAbs16 xs)) :=
  normW32_bounds (maxAbs16_sq_pos nonzero) ((maxAbs16_sq_lt xs).trans (by norm_num))

end LargestSquare

/-! ### The scale (R121) -/

theorem acScale_of_eq_zero {xs : List Int} (zero : maxAbs16 xs = 0) : acScale xs = 0 := if_pos zero

/-- The cut at 0 is that of the natural numbers' subtraction. -/
theorem acScale_of_ne_zero {xs : List Int} (nonzero : maxAbs16 xs ≠ 0) :
    acScale xs = sizeInBits xs.length - normW32 (maxAbs16 xs * maxAbs16 xs) := by
  simp only [acScale, if_neg nonzero, mul16]
  exact ite_eq_right_iff.2 fun fewer => (Nat.sub_eq_zero_of_le fewer.le).symm

/-- Settles O33: the bound is `acScale_le_nine`, the cases are whether the clamped maximum is 0. -/
theorem acorrScaleFormula : Obligations.AcorrScaleFormula := by
  refine fun xs _ len _ => ⟨acScale_le_nine len, fun zero => ?_, fun ⟨v, mem, ne⟩ => ?_⟩
  · exact acScale_of_eq_zero (maxAbs16_eq_zero_iff.2 zero)
  · have nonzero : maxAbs16 xs ≠ 0 := fun zero => ne (maxAbs16_eq_zero_iff.1 zero v mem)
    exact ⟨acScale_of_ne_zero nonzero, one_le_normW32_maxAbs16_sq nonzero⟩

/-! ### The scaled products (R123, R124) -/

theorem abs_asr_le {v : Int} {k n : Nat} (le : n ≤ k) (bound : |v| ≤ 2 ^ k) :
    |asr v n| ≤ 2 ^ (k - n) := by
  have two_pow_pos : (0 : Int) < 2 ^ n := Int.pow_pos (by decide)
  have cut : (2 : Int) ^ k = 2 ^ (k - n) * 2 ^ n := by rw [← pow_add, Nat.sub_add_cancel le]
  rw [cut, abs_le, ← neg_mul] at bound
  exact abs_le.2 ⟨Int.le_ediv_of_mul_le two_pow_pos bound.1,
    Int.ediv_le_of_le_mul two_pow_pos bound.2⟩

section Frame
variable {xs : List Int} (int16 : ∀ v ∈ xs, -32768 ≤ v ∧ v ≤ 32767)
include int16

/-- A product is at most the largest square, except where a factor is -32768: there the clamped maximum is
32767, whose square has as many bits as 2^30 - 1. -/
theorem abs_mul_le_two_pow_norm (nonzero : maxAbs16 xs ≠ 0) {v w : Int} (hv : v ∈ xs) (hw : w ∈ xs) :
    |v * w| ≤ 2 ^ (31 - normW32 (maxAbs16 xs * maxAbs16 xs)) := by
  have largest := (normW32_maxAbs16_sq_bounds nonzero).2
  have clampV : min 32767 |v| ≤ maxAbs16 xs := by simpa using min_natAbs_le_maxAbs16 hv
  have clampW : min 32767 |w| ≤ maxAbs16 xs := by simpa using min_natAbs_le_maxAbs16 hw
  rw [abs_mul]
  by_cases clamped : maxAbs16 xs = 32767
  · have exponent : 29 < 31 - normW32 (maxAbs16 xs * maxAbs16 xs) := by
      rw [clamped] at largest ⊢
      exact (pow_lt_pow_iff_right₀ one_lt_two).1 ((show (2 : Int) ^ 29 < 32767 * 32767 by norm_num).trans
        largest)
    have boundV : |v| ≤ 2 ^ 15 := abs_le.2 (by have := int16 v hv; omega)
    have boundW : |w| ≤ 2 ^ 15 := abs_le.2 (by have := int16 w hw; omega)
    calc |v| * |w| ≤ 2 ^ 15 * 2 ^ 15 := mul_le_mul boundV boundW (abs_nonneg w) (by decide)
      _ = 2 ^ 30 := by norm_num
      _ ≤ _ := pow_le_pow_right₀ one_le_two exponent
  · have := maxAbs16_le xs
    calc |v| * |w| ≤ maxAbs16 xs * maxAbs16 xs :=
          mul_le_mul (by omega) (by omega) (abs_nonneg w) (maxAbs16_nonneg xs)
      _ ≤ _ := largest.le

/-- Each shifted term leaves the bits of the frame's length free below bit 31. -/
theorem abs_scaledProduct_le (len : xs.length ≤ 640) {v w : Int} (hv : v ∈ xs) (hw : w ∈ xs) :
    |asr (v * w) (acScale xs)| ≤ 2 ^ (31 - sizeInBits xs.length) := by
  by_cases zero : maxAbs16 xs = 0
  · simp [maxAbs16_eq_zero_iff.1 zero v hv, asr]
  · have bits : sizeInBits xs.length ≤ 10 := sizeInBits_le (by omega)
    have scale := acScale_of_ne_zero zero
    calc |asr (v * w) (acScale xs)|
        ≤ 2 ^ (31 - normW32 (maxAbs16 xs * maxAbs16 xs) - acScale xs) :=
          abs_asr_le (by omega) (abs_mul_le_two_pow_norm int16 zero hv hw)
      _ ≤ _ := pow_le_pow_right₀ one_le_two (by omega)

end Frame

/-- A sample of the largest magnitude keeps a bit of its square through the shift (R124). -/
theorem exists_scaledSquare_pos {xs : List Int} (len : xs.length ≤ 640)
    (nonzero : maxAbs16 xs ≠ 0) : ∃ v ∈ xs, 0 < asr (v * v) (acScale xs) := by
  have bits : sizeInBits xs.length ≤ 10 := sizeInBits_le (by omega)
  have scale := acScale_of_ne_zero nonzero
  have nonempty : xs ≠ [] := by
    rintro rfl
    exact nonzero rfl
  obtain ⟨v, mem, attained⟩ := maxAbs16_attained nonempty
  have below : maxAbs16 xs ≤ |v| := by
    rw [attained, Int.natCast_natAbs]
    exact min_le_right _ _
  have square : 2 ^ acScale xs ≤ v * v :=
    calc (2 : Int) ^ acScale xs
        ≤ 2 ^ (30 - normW32 (maxAbs16 xs * maxAbs16 xs)) := pow_le_pow_right₀ one_le_two (by omega)
      _ ≤ maxAbs16 xs * maxAbs16 xs := (normW32_maxAbs16_sq_bounds nonzero).1
      _ ≤ |v| * |v| := mul_self_le_mul_self (maxAbs16_nonneg xs) below
      _ = v * v := abs_mul_abs_self v
  exact ⟨v, mem, Int.le_ediv_of_mul_le (Int.pow_pos (by decide)) (by rwa [zero_add, one_mul])⟩

/-- Fewer than 2^k terms, each leaving k bits free below bit 31, have a sum in int32. -/
theorem abs_sum_lt_two_pow {f : Nat → Int} {m k : Nat} (few : m < 2 ^ k) (bits : k ≤ 31)
    (small : ∀ j < m, |f j| ≤ 2 ^ (31 - k)) : |∑ j ∈ Finset.range m, f j| < 2 ^ 31 := by
  have two_pow_pos : (0 : Int) < 2 ^ (31 - k) := Int.pow_pos (by decide)
  calc |∑ j ∈ Finset.range m, f j| ≤ ∑ j ∈ Finset.range m, |f j| := Finset.abs_sum_le_sum_abs _ _
    _ ≤ (Finset.range m).card • 2 ^ (31 - k) :=
        Finset.sum_le_card_nsmul _ _ _ fun j mem => small j (Finset.mem_range.1 mem)
    _ = m * 2 ^ (31 - k) := by rw [Finset.card_range, nsmul_eq_mul]
    _ < 2 ^ k * 2 ^ (31 - k) := mul_lt_mul_of_pos_right (by exact_mod_cast few) two_pow_pos
    _ = 2 ^ 31 := by rw [← pow_add, Nat.add_sub_cancel' bits]

/-! ### The sum of a lag (R122) -/

/-- The first m terms of lag i of the frame x 0, ..., x (l-1), in exact arithmetic. `lagSum_frame` ties it
to the model's wrapped sum. -/
def exactSum (l : Nat) (x : Nat → Int) (i m : Nat) : Int :=
  ∑ j ∈ Finset.range m, asr (x j * x (i + j)) (acScale ((List.range l).map x))

/-- A wrap at each addition is one wrap of the sum. -/
theorem foldl_wrap32_add (f : Int → Int) (a : Int) (ps : List Int) :
    ps.foldl (fun s p => wrap32 (s + f p)) (wrap32 a) = wrap32 (a + (ps.map f).sum) := by
  induction ps generalizing a with
  | nil => simp
  | cons p ps ih =>
    rw [List.foldl_cons, add_comm (wrap32 a), wrap32_add_wrap32, ih, List.map_cons, List.sum_cons,
      add_comm (f p), add_assoc]

/-- The products of lag i: the frame against itself from entry i on. -/
theorem zipWith_drop_frame (l : Nat) (x : Nat → Int) (i : Nat) :
    List.zipWith mul16 ((List.range l).map x) (((List.range l).map x).drop i) =
      (List.range (l - i)).map (fun j => x j * x (i + j)) := by
  apply List.ext_getElem
  · simp
  · intro j _ _
    simp [mul16]

theorem lagSum_frame (l : Nat) (x : Nat → Int) (i : Nat) :
    lagSum (acScale ((List.range l).map x)) ((List.range l).map x) i =
      wrap32 (exactSum l x i (l - i)) := by
  rw [lagSum, zipWith_drop_frame, show (0 : Int) = wrap32 0 from rfl,
    foldl_wrap32_add (fun p => asr p _), zero_add, List.map_map]
  rfl

/-- The lags of a command, the clamp on the first. -/
theorem autocorrelation_eq (n : Nat) (xs : List Int) :
    autocorrelation n xs =
      (if lagSum (acScale xs) xs 0 = 0 then 32767 else lagSum (acScale xs) xs 0) ::
        (List.range n).map (fun i => lagSum (acScale xs) xs (i + 1)) := by
  rw [autocorrelation, List.range_succ_eq_map, List.map_cons, List.map_map]
  rfl

section Int16Frame
variable {l : Nat} {x : Nat → Int} (len : l ≤ 640) (int16 : ∀ j < l, -32768 ≤ x j ∧ x j ≤ 32767)
include len int16

/-- No partial sum of a lag leaves int32 (R123). -/
theorem exactSum_range {i m : Nat} (inFrame : m ≤ l - i) :
    -2147483648 ≤ exactSum l x i m ∧ exactSum l x i m < 2147483648 := by
  have mem {j : Nat} (h : j < l) : x j ∈ (List.range l).map x :=
    List.mem_map_of_mem (List.mem_range.2 h)
  have frameInt16 : ∀ v ∈ (List.range l).map x, -32768 ≤ v ∧ v ≤ 32767 := by simpa using int16
  have bound : |exactSum l x i m| < 2 ^ 31 := by
    refine abs_sum_lt_two_pow (k := sizeInBits l) ?_ (sizeInBits_le (by omega)) fun j small => ?_
    · have := lt_two_pow_sizeInBits l
      omega
    · simpa using abs_scaledProduct_le frameInt16 (by simpa using len) (mem (j := j) (by omega))
        (mem (j := i + j) (by omega))
  rw [abs_lt] at bound
  omega

theorem lagSum_eq_exactSum (i : Nat) :
    lagSum (acScale ((List.range l).map x)) ((List.range l).map x) i = exactSum l x i (l - i) := by
  obtain ⟨lower, upper⟩ := exactSum_range len int16 (i := i) le_rfl
  rw [lagSum_frame, wrap32_of_range lower upper]

/-- R after the writes of ACORR, register by register. -/
theorem getElem_acorrWrites_r (n : Nat) (s : State) {i : Nat} (h : i < 13) :
    (acorrWrites n ((List.range l).map x) s).r[i] =
      if i = 0 then toWord (if exactSum l x 0 l = 0 then 32767 else exactSum l x 0 l)
      else if i ≤ n then toWord (exactSum l x i (l - i)) else s.r[i] := by
  simp only [acorrWrites_r, getElem_writeFrom_zero, autocorrelation_eq,
    lagSum_eq_exactSum len int16]
  cases i with
  | zero => simp
  | succ i => simp

end Int16Frame

theorem toNat_acorrWrites_acscale {l : Nat} (len : l ≤ 640) (x : Nat → Int) (n : Nat) (s : State) :
    (acorrWrites n ((List.range l).map x) s).acscale.toNat = acScale ((List.range l).map x) := by
  have scale : acScale ((List.range l).map x) ≤ 9 := acScale_le_nine (by simpa using len)
  rw [acorrWrites_acscale, BitVec.toNat_ofNat]
  omega

/-! ### The zero lag (R124) -/

theorem asr_mul_self_nonneg (v : Int) (n : Nat) : 0 ≤ asr (v * v) n :=
  Int.ediv_nonneg (mul_self_nonneg v) (Int.pow_pos (by decide)).le

theorem exactSum_zero_nonneg (l : Nat) (x : Nat → Int) : 0 ≤ exactSum l x 0 l :=
  Finset.sum_nonneg fun j _ => by
    rw [zero_add]
    exact asr_mul_self_nonneg _ _

/-- The sum of the squares is 0 only with every term, and the term of the largest sample is not 0 if the
sample is not. -/
theorem exactSum_zero_eq_zero_iff {l : Nat} (len : l ≤ 640) (x : Nat → Int) :
    exactSum l x 0 l = 0 ↔ ∀ j < l, x j = 0 := by
  have terms : exactSum l x 0 l = 0 ↔
      ∀ v ∈ (List.range l).map x, asr (v * v) (acScale ((List.range l).map x)) = 0 := by
    simp only [exactSum, zero_add]
    rw [Finset.sum_eq_zero_iff_of_nonneg fun j _ => asr_mul_self_nonneg _ _]
    simp
  have samples : (∀ j < l, x j = 0) ↔ ∀ v ∈ (List.range l).map x, v = 0 := by simp
  rw [terms, samples]
  constructor
  · intro zeroTerms
    by_contra someSample
    obtain ⟨v, mem, pos⟩ := exists_scaledSquare_pos (by simpa using len)
      (mt maxAbs16_eq_zero_iff.1 someSample)
    exact pos.ne' (zeroTerms v mem)
  · intro zeroSamples v mem
    rw [zeroSamples v mem]
    exact Int.zero_ediv _

/-! ### The command -/

theorem int16_of_holdsSamples {s : State} {b : Buf} {l : Nat} {x : Nat → Int}
    (holds : holdsSamples s b l x) : ∀ j < l, -32768 ≤ x j ∧ x j ≤ 32767 := by
  intro j inFrame
  obtain ⟨h, -, value⟩ := holds j inFrame
  have lower := h.le_toInt
  have upper := h.toInt_lt
  omega

theorem inputSamples_of_holdsSamples {s : State} {b : Buf} {l : Nat} {x : Nat → Int}
    (holds : holdsSamples s b l x) : inputSamples s b l = some ((List.range l).map x) := by
  cases read : inputSamples s b l with
  | none =>
    obtain ⟨j, inFrame, unwritten⟩ := inputSamples_eq_none.1 read
    obtain ⟨h, written, -⟩ := holds j inFrame
    simp [unwritten] at written
  | some xs =>
    obtain ⟨hs, rfl, entries, rfl⟩ := inputSamples_eq_some.1 read
    congr 1
    apply List.ext_getElem
    · simp
    · intro j inFrame _
      rw [List.length_map] at inFrame
      obtain ⟨h, written, value⟩ := holds j inFrame
      rw [entries j inFrame, Option.some.injEq] at written
      simp [written, value]

/-- ACORR with legal operands on written samples (R122). -/
theorem exec_acorr_of_holdsSamples {s : State} {n l : Nat} {b : Buf} {x : Nat → Int}
    (isLegal : legal (.acorr n l b)) (holds : holdsSamples s b l x) :
    exec (.acorr n l b) s = .next (complete .ok 0 (acorrWrites n ((List.range l).map x) s)) := by
  obtain ⟨order, lags, nonempty, len⟩ := isLegal
  show execAcorr n l b s = _
  simp [execAcorr, lagsLegal, lenLegal, order, lags, nonempty, len, inputSamples_of_holdsSamples holds]

/-- The word of an ACORR (30_encoding.md R81, R88). -/
theorem encode_acorr (n l : Nat) (b : Buf) :
    encode (.acorr n l b) = BitVec.ofNat 32 (0x1 + n * 2 ^ 4 + l * 2 ^ 8 + bitOfBuf b * 2 ^ 18) := by
  rw [encode, commandWord, Nat.zero_mul, Nat.add_zero]

/-- Settles O32: the writes of a legal command are read register by register, its sums exact because no
partial sum leaves int32; other operands and the encoding are the rules for every command. -/
theorem acorrComputesScaledAutocorrelation : Obligations.AcorrComputesScaledAutocorrelation := by
  refine fun s n l b x => ⟨fun isLegal holds => ?_, fun illegal => ?_, fun order len => ?_⟩
  · have ⟨_, _, _, len⟩ := isLegal
    have int16 := int16_of_holdsSamples holds
    exact ⟨_, exec_acorr_of_holdsSamples isLegal holds,
      fun i h => getElem_acorrWrites_r len int16 n s h,
      fun i m _ inFrame => exactSum_range len int16 inFrame,
      toNat_acorrWrites_acscale len x n s, rfl⟩
  · exact exec_of_not_legal (i := .acorr n l b) illegal s
  · rw [← encode_acorr]
    refine runWord_of_decoded (decodeWord_encode ?_) s
    simp [Instr.wf, orderFits, lenFits, order, len]

/-- Settles O34: the clamp replaces the exact zero-lag sum, which is never negative, where it is 0. -/
theorem acorrZeroLagIsPositive : Obligations.AcorrZeroLagIsPositive := by
  intro s t n l b x isLegal holds run
  have ⟨_, _, _, len⟩ := isLegal
  have int16 := int16_of_holdsSamples holds
  rw [exec_acorr_of_holdsSamples isLegal holds] at run
  cases run
  obtain ⟨lower, upper⟩ := exactSum_range len int16 (i := 0) (m := l) le_rfl
  have nonneg := exactSum_zero_nonneg l x
  have zeroLag : (acorrWrites n ((List.range l).map x) s).r[0].toInt =
      if exactSum l x 0 l = 0 then 32767 else exactSum l x 0 l := by
    rw [getElem_acorrWrites_r len int16 n s, if_pos rfl, toInt_toWord]
    exact wrap32_of_range (by split <;> omega) (by split <;> omega)
  have allZero := exactSum_zero_eq_zero_iff len x
  rw [complete_r, zeroLag]
  refine ⟨by split <;> omega, ?_, fun zero => if_pos (allZero.2 zero)⟩
  simpa only [exactSum, zero_add] using allZero

end Sys2Proof.Proofs
end

section
/-! LEVDUR (42_levinson.md R133 to R138): the model's recursion over lists passes through the variables
of the pseudocode, read off as lists. -/

namespace Sys2Proof.Proofs
open Sys2Proof Sys2Proof.Machine

/-! ### The stages of one step -/

theorem negQuotient_eq_pcDivHiLo (num : Int) (den : HiLo) :
    negQuotient num den =
      if num > 0 then wrap32 (-pcDivHiLo (abs32 num) den.hi den.lo)
      else pcDivHiLo (abs32 num) den.hi den.lo := by
  rw [← divHiLo_eq_pcDivHiLo]
  rfl

theorem energyUpdate_eq_pcEnergy (e : HiLo) (t : Int) : energyUpdate e (split t) = pcEnergy e t := by
  simp only [energyUpdate, oneMinusSquare, HiLo.mul, mul16, pcEnergy, split_hi, split_lo]

theorem unstableCoef_iff (k : Int) : unstableCoef k = true ↔ 32750 < k.natAbs := decide_eq_true_iff

/-- One term of a step's sum over R[j]*A[i-j], as the pseudocode groups it. -/
def lagTerm (r a : HiLo) : Int :=
  2 * (r.hi * a.hi) + 2 * (asr (r.hi * a.lo) 15 + asr (r.lo * a.hi) 15)

/-- The sum of a step, wrapped at each addition, is the exact sum wrapped once (00_scope.md R12). -/
theorem lagPredictor_eq_wrap32_sum (rs as : List HiLo) :
    lagPredictor rs as = wrap32 ((List.zip rs as.reverse).map fun p => lagTerm p.1 p.2).sum := by
  have fold := foldl_wrap32_add id 0 ((List.zip rs as.reverse).map fun p => lagTerm p.1 p.2)
  rw [List.foldl_map, List.map_id, zero_add] at fold
  simp only [lagPredictor, add_assoc, mul16]
  exact fold

section Recursion
variable (R : Nat → HiLo)

/-! ### The pseudocode's variables as lists -/

/-- The coefficient of step f + 1 in Q31, as that step leaves it. -/
def pcCoefAt (f : Nat) : Int := (pcRun R f).coef f

/-- R[i..i+count-1] in the pseudocode's arrays. -/
def lagsFrom (i count : Nat) : List HiLo := (List.range' i count).map R

/-- K[0..count-1] in Q15, in the pseudocode's arrays. -/
def pcCoefs (count : Nat) : List Int := (List.range count).map fun f => hi16 (pcCoefAt R f)

/-- A[1..m+1] in the pseudocode's arrays after step m + 1. -/
def pcPolynomial (m : Nat) : List HiLo := (List.range' 1 (m + 1)).map (pcRun R m).a

/-- The pseudocode's variables after step m + 1, as the model carries them. `firstState_eq` and
`levAdvance_eq` tie it to the model's steps. -/
def levAfter (m : Nat) : LevState where
  as := pcPolynomial R m
  alpha := (pcRun R m).alpha
  alphaExp := (pcRun R m).alphaExp
  ks := pcCoefs R (m + 1)

theorem pcCoefAt_zero : pcCoefAt R 0 = firstCoef (R 0) (R 1) :=
  (negQuotient_eq_pcDivHiLo _ _).symm

theorem pcCoefAt_succ (m : Nat) : pcCoefAt R (m + 1) = pcCoef R (pcRun R m) (m + 2) := if_pos rfl

theorem lagsFrom_succ (i count : Nat) : lagsFrom R i (count + 1) = R i :: lagsFrom R (i + 1) count :=
  rfl

theorem lagsFrom_concat (i count : Nat) :
    lagsFrom R i (count + 1) = lagsFrom R i count ++ [R (i + count)] := by
  simp [lagsFrom, List.range'_concat]

theorem pcCoefs_succ (count : Nat) :
    pcCoefs R (count + 1) = pcCoefs R count ++ [hi16 (pcCoefAt R count)] := by
  simp [pcCoefs, List.range_succ]

/-- The coefficient that step m + 2 appends to A. -/
theorem pcRun_succ_a_last (m : Nat) :
    (pcRun R (m + 1)).a (m + 2) = split (asr (pcCoefAt R (m + 1)) 4) := by
  rw [pcCoefAt_succ]
  exact if_pos rfl

/-- The step up of A[j], for j below the step's own index. -/
theorem pcRun_succ_a_of_ne {m j : Nat} (notLast : j ≠ m + 2) :
    (pcRun R (m + 1)).a j = split (wrap32 (((pcRun R m).a j).joined
      + 2 * (split (pcCoefAt R (m + 1))).mul ((pcRun R m).a (m + 2 - j)))) := by
  simp only [pcCoefAt_succ, pcRun, pcStep, if_neg notLast, HiLo.joined, HiLo.mul, mul16, split_hi, split_lo]

/-- A[i-j] for j = 1, 2, ... is the reversed list of A[1..i-1]. -/
theorem reverse_pcPolynomial (m : Nat) :
    (pcPolynomial R m).reverse = (List.range' 1 (m + 1)).map fun j => (pcRun R m).a (m + 2 - j) := by
  apply List.ext_getElem
  · simp [pcPolynomial]
  · intro j inRange _
    simp only [pcPolynomial, List.length_reverse, List.length_map, List.length_range'] at inRange
    simp only [pcPolynomial, List.getElem_reverse, List.getElem_map, List.getElem_range',
      List.length_map, List.length_range']
    congr 1
    omega

/-! ### The model's steps -/

theorem lagPredictor_eq (m : Nat) :
    lagPredictor (lagsFrom R 1 (m + 1)) (pcPolynomial R m) =
      wrap32 (∑ j ∈ Finset.Ico 1 (m + 2), lagTerm (R j) ((pcRun R m).a (m + 2 - j))) := by
  rw [lagPredictor_eq_wrap32_sum, reverse_pcPolynomial, lagsFrom, List.zip_map', List.map_map]
  rfl

theorem levCoef_eq (m : Nat) :
    levCoef (lagsFrom R 1 (m + 1)) (R (m + 2)) (levAfter R m) = pcCoefAt R (m + 1) := by
  simp only [pcCoefAt_succ, pcCoef, levCoef, levNumerator, levAfter, lagPredictor_eq, lagTerm,
    denormalize, negQuotient_eq_pcDivHiLo, HiLo.joined, gt_iff_lt]

theorem firstState_eq : firstState (R 0) (pcCoefAt R 0) = levAfter R 0 := by
  rw [firstState, energyUpdate_eq_pcEnergy]
  rfl

theorem pcPolynomial_succ (m : Nat) :
    pcPolynomial R (m + 1) =
      stepUpQ27 (split (pcCoefAt R (m + 1))) (pcPolynomial R m)
        ++ [split (asr (pcCoefAt R (m + 1)) 4)] := by
  have old : stepUpQ27 (split (pcCoefAt R (m + 1))) (pcPolynomial R m) =
      (List.range' 1 (m + 1)).map (pcRun R (m + 1)).a := by
    rw [stepUpQ27, reverse_pcPolynomial, pcPolynomial, List.zipWith_map, List.zipWith_self]
    refine List.map_congr_left fun j inRange => (pcRun_succ_a_of_ne R ?_).symm
    rw [List.mem_range'_1] at inRange
    omega
  rw [old, ← pcRun_succ_a_last, pcPolynomial, List.range'_concat, List.map_append]
  simp [add_comm 1]

theorem levAdvance_eq (m : Nat) :
    levAdvance (pcCoefAt R (m + 1)) (levAfter R m) = levAfter R (m + 1) := by
  rw [levAdvance, levAfter, levAfter, pcPolynomial_succ, pcCoefs_succ R (m + 1)]
  simp only [energyUpdate_eq_pcEnergy, pcCoefAt_succ]
  rfl

/-- One round of steps 2..N, with `count` more lags to come. -/
theorem levLoop_succ (m count : Nat) :
    levLoop (lagsFrom R 1 (m + 1)) (lagsFrom R (m + 2) (count + 1)) (levAfter R m) =
      if unstableCoef (hi16 (pcCoefAt R (m + 1))) then .unstable (pcCoefs R (m + 2))
      else levLoop (lagsFrom R 1 (m + 2)) (lagsFrom R (m + 3) count) (levAfter R (m + 1)) := by
  rw [lagsFrom_succ R (m + 2), levLoop, levCoef_eq, levAdvance_eq, pcCoefs_succ R (m + 1),
    lagsFrom_concat R 1 (m + 1), add_comm 1]
  rfl

/-! ### The end of the recursion -/

theorem levLoop_stable {m count : Nat}
    (pass : ∀ f, m < f → f ≤ m + count → unstableCoef (hi16 (pcCoefAt R f)) = false) :
    levLoop (lagsFrom R 1 (m + 1)) (lagsFrom R (m + 2) count) (levAfter R m) =
      .stable (pcCoefs R (m + count + 1)) (pcPolynomial R (m + count)) := by
  induction count generalizing m with
  | zero => rfl
  | succ count ih =>
    rw [levLoop_succ, pass (m + 1) (by omega) (by omega), if_neg Bool.false_ne_true,
      ih fun f above below => pass f (by omega) (by omega), add_right_comm m 1 count]
    rfl

theorem levLoop_unstable {m count f : Nat} (above : m < f) (below : f ≤ m + count)
    (fails : unstableCoef (hi16 (pcCoefAt R f)) = true)
    (pass : ∀ g, m < g → g < f → unstableCoef (hi16 (pcCoefAt R g)) = false) :
    levLoop (lagsFrom R 1 (m + 1)) (lagsFrom R (m + 2) count) (levAfter R m) =
      .unstable (pcCoefs R (f + 1)) := by
  induction count generalizing m with
  | zero => omega
  | succ count ih =>
    rw [levLoop_succ]
    obtain rfl | later := Nat.eq_or_lt_of_le (Nat.succ_le_of_lt above)
    · rw [if_pos fails]
    · rw [pass (m + 1) (by omega) later, if_neg Bool.false_ne_true]
      exact ih later (by omega) fun g lower upper => pass g (by omega) upper

end Recursion

/-! ### The command -/

theorem normalizedLags_firstInts {s : State} {n : Nat} (order : n ≤ 12) :
    normalizedLags (firstInts s.r (n + 1)) = lagsFrom (pcLags s) 0 (n + 1) := by
  have head : (firstInts s.r (n + 1)).headD 0 = s.r[0].toInt := by
    rw [List.headD_eq_head?_getD, List.head?_eq_getElem?, List.getElem?_eq_getElem (by simp),
      getElem_firstInts, Option.getD_some]
  rw [normalizedLags, head]
  apply List.ext_getElem
  · simp only [lagsFrom, List.length_map, length_firstInts, List.length_range']
    omega
  · intro j inRange _
    simp only [List.length_map, length_firstInts] at inRange
    simp [lagsFrom, pcLags, getElem_firstInts, show j < 13 by omega]

/-- The recursion on the lags of a state, step 1 done. -/
theorem levinson_eq {s : State} {n : Nat} (order : n + 1 ≤ 12) :
    levinson s.modes.k0chk (firstInts s.r (n + 2)) =
      if s.modes.k0chk && unstableCoef (pcK s 0) then .unstable (pcCoefs (pcLags s) 1)
      else levLoop (lagsFrom (pcLags s) 1 1) (lagsFrom (pcLags s) 2 n) (levAfter (pcLags s) 0) := by
  rw [levinson, normalizedLags_firstInts order, lagsFrom_succ, lagsFrom_succ]
  simp only [← pcCoefAt_zero, firstState_eq]
  rfl

theorem pcFails_zero_iff (s : State) :
    pcFails s 0 ↔ (s.modes.k0chk && unstableCoef (pcK s 0)) = true := by
  simp [pcFails, unstableCoef_iff, and_comm]

theorem pcFails_iff_of_pos {s : State} {f : Nat} (later : 0 < f) :
    pcFails s f ↔ unstableCoef (pcK s f) = true := by
  simp [pcFails, unstableCoef_iff, later.ne']

theorem exec_levdur {s : State} {n : Nat} (isLegal : legal (.levdur n)) :
    exec (.levdur n) s = .next (levdurEnd s (levinson s.modes.k0chk (firstInts s.r (n + 1)))) :=
  if_pos (by simpa [legal, orderLegal] using isLegal)

/-- LEVDUR where no coefficient fails the check (R138). -/
theorem exec_levdur_of_pass {s : State} {n : Nat} (pos : 1 ≤ n) (order : n ≤ 12)
    (pass : ∀ f, f < n → ¬ pcFails s f) :
    exec (.levdur n) s = .next
      (levdurEnd s (.stable (pcCoefs (pcLags s) n) (pcPolynomial (pcLags s) (n - 1)))) := by
  obtain ⟨n, rfl⟩ := Nat.exists_eq_add_of_le' pos
  have laterPass : ∀ f, 0 < f → f ≤ 0 + n → unstableCoef (pcK s f) = false := fun f later below =>
    Bool.eq_false_iff.2 fun unstable => pass f (by omega) ((pcFails_iff_of_pos later).2 unstable)
  rw [exec_levdur ⟨pos, order⟩, levinson_eq order, if_neg (mt (pcFails_zero_iff s).2 (pass 0 pos)),
    levLoop_stable (pcLags s) laterPass, zero_add, Nat.add_sub_cancel]

/-- LEVDUR where the coefficient with index f is the first that fails the check (R137). -/
theorem exec_levdur_of_fails {s : State} {n f : Nat} (order : n ≤ 12) (below : f < n)
    (fails : pcFails s f) (pass : ∀ g, g < f → ¬ pcFails s g) :
    exec (.levdur n) s = .next (levdurEnd s (.unstable (pcCoefs (pcLags s) (f + 1)))) := by
  obtain ⟨n, rfl⟩ := Nat.exists_eq_add_of_le' (Nat.one_le_of_lt below)
  rw [exec_levdur ⟨Nat.one_le_of_lt below, order⟩, levinson_eq order]
  obtain rfl | later := Nat.eq_zero_or_pos f
  · rw [if_pos ((pcFails_zero_iff s).1 fails)]
  · rw [if_neg (mt (pcFails_zero_iff s).2 (pass 0 later)),
      levLoop_unstable (pcLags s) later (by omega) ((pcFails_iff_of_pos later).1 fails)]
    exact fun g pos upper => Bool.eq_false_iff.2 fun unstable =>
      pass g upper ((pcFails_iff_of_pos pos).2 unstable)

/-! ### What it writes -/

@[simp] theorem length_pcCoefs (R : Nat → HiLo) (count : Nat) : (pcCoefs R count).length = count := by
  simp [pcCoefs]

theorem hi16_pcCoefAt (s : State) (f : Nat) : hi16 (pcCoefAt (pcLags s) f) = pcK s f := rfl

theorem q27ToQ12_pcRun_a (s : State) (n i : Nat) :
    q27ToQ12 ((pcRun (pcLags s) (n - 1)).a i) = pcA s n i := rfl

/-- K after the coefficients with index below count are written (R137, R138). -/
theorem getElem_writeFrom_pcCoefs (s : State) (count : Nat) {i : Nat} (h : i < 12) :
    (writeFrom s.k 0 ((pcCoefs (pcLags s) count).map toHalf))[i] =
      if i < count then toHalf (pcK s i) else s.k[i] := by
  simp [getElem_writeFrom_zero, pcCoefs, hi16_pcCoefAt]

/-- A after the polynomial of order n is written (R138). -/
theorem getElem_writeFrom_pcPolynomial (s : State) {n : Nat} (pos : 1 ≤ n) {i : Nat} (h : i < 13) :
    (writeFrom s.a 0 ((4096 :: (pcPolynomial (pcLags s) (n - 1)).map q27ToQ12).map toHalf))[i] =
      if i = 0 then 4096 else if i ≤ n then toHalf (pcA s n i) else s.a[i] := by
  rw [getElem_writeFrom_zero]
  cases i with
  | zero => rfl
  | succ i =>
    simp [pcPolynomial, Nat.sub_add_cancel pos, add_comm 1, q27ToQ12_pcRun_a]

/-- A stored coefficient reads as itself. -/
theorem toInt_toHalf_pcK (s : State) (f : Nat) : (toHalf (pcK s f)).toInt = pcK s f := by
  obtain ⟨lower, upper⟩ := hi16_range (pcCoefAt (pcLags s) f)
  rw [toInt_toHalf]
  exact trunc16_of_range lower upper

/-- FAILIDX is the index of the last coefficient written (R137). -/
theorem failidx_levdurEnd_unstable (s : State) {f : Nat} (h : f < 12) :
    (levdurEnd s (.unstable (pcCoefs (pcLags s) (f + 1)))).status.failidx.toNat = f := by
  simp only [levdurEnd_unstable_status, completed_failidx, length_pcCoefs, Nat.add_sub_cancel,
    BitVec.toNat_ofNat]
  omega

/-- The word of a LEVDUR (30_encoding.md R81, R88). -/
theorem encode_levdur (n : Nat) : encode (.levdur n) = BitVec.ofNat 32 (0x2 + n * 2 ^ 4) := by
  simp only [encode, commandWord, Nat.zero_mul, Nat.add_zero]

/-! ### The obligations -/

/-- Settles O35: the recursion ends with the pseudocode's arrays, at the first coefficient that fails or
after the last step. -/
theorem levdurFollowsThePseudocode : Obligations.LevdurFollowsThePseudocode := by
  refine fun s n => ⟨fun ⟨pos, order⟩ => ⟨fun pass => ?stable, fun f below fails pass => ?unstable⟩,
    fun illegal => exec_of_not_legal (i := .levdur n) illegal s, fun fits => ?encoding⟩
  case stable =>
    exact ⟨_, exec_levdur_of_pass pos order pass, fun i h => getElem_writeFrom_pcCoefs s n h,
      fun i h => getElem_writeFrom_pcPolynomial s pos h, rfl⟩
  case unstable =>
    refine ⟨_, exec_levdur_of_fails order below fails pass, fun i h => ?_,
      failidx_levdurEnd_unstable s (by omega), ?_⟩
    · rw [levdurEnd_unstable_k, getElem_writeFrom_pcCoefs]
      simp only [Nat.lt_succ_iff]
    · rw [levdurEnd, length_pcCoefs, Nat.add_sub_cancel]
      rfl
  case encoding =>
    rw [← encode_levdur]
    refine runWord_of_decoded (decodeWord_encode ?_) s
    simp [Instr.wf, orderFits, fits]

/-- Settles O36: with K0CHK = 1 every coefficient is checked, so the ones before the first that fails
(all of them, if none does) are within the bound. -/
theorem levdurNeverHidesInstability : Obligations.LevdurNeverHidesInstability := by
  classical
  intro s n pos order k0chk
  have bounded {f : Nat} (pass : ¬ pcFails s f) : (pcK s f).natAbs ≤ 32750 :=
    not_lt.1 fun above => pass ⟨above, fun _ => k0chk⟩
  by_cases unstable : ∃ f, f < n ∧ pcFails s f
  case neg =>
    have pass : ∀ f, f < n → ¬ pcFails s f := fun f below fails => unstable ⟨f, below, fails⟩
    refine ⟨_, exec_levdur_of_pass pos order pass, .inl ⟨rfl, fun i h below => ?_⟩⟩
    rw [levdurEnd_stable_k, getElem_writeFrom_pcCoefs, if_pos below, toInt_toHalf_pcK]
    exact bounded (pass i below)
  case pos =>
    obtain ⟨f, ⟨below, fails⟩, first⟩ := Nat.findX unstable
    have pass : ∀ g, g < f → ¬ pcFails s g := fun g before failsBefore =>
      first g before ⟨by omega, failsBefore⟩
    refine ⟨_, exec_levdur_of_fails order below fails pass, .inr ⟨rfl, rfl, f, by omega, below,
      failidx_levdurEnd_unstable s (by omega), ?failing, fun i h before => ?earlier,
      fun i h after => ?later⟩⟩
    case failing =>
      rw [levdurEnd_unstable_k, getElem_writeFrom_pcCoefs, if_pos (by omega), toInt_toHalf_pcK]
      exact fails.1
    case earlier =>
      rw [levdurEnd_unstable_k, getElem_writeFrom_pcCoefs, if_pos (by omega), toInt_toHalf_pcK]
      exact bounded (pass i before)
    case later =>
      rw [levdurEnd_unstable_k, getElem_writeFrom_pcCoefs, if_neg (by omega)]

end Sys2Proof.Proofs
end

section
/-! K2A (43_k2a.md R151, R153): the model's fold over the coefficients passes through the pseudocode's
polynomials, and a step with a zero coefficient keeps the polynomial. -/

namespace Sys2Proof.Proofs
open Sys2Proof Sys2Proof.Machine

section StepUp
variable (K : Nat → Int)

/-! ### The step up over lists -/

/-- A[1..m] in the pseudocode's array of order m. `foldl_stepUpQ12` ties it to the model's steps. -/
def pcStepUp (m : Nat) : List Int := (List.range' 1 m).map (pcPoly K m)

theorem pcPoly_at_zero (m : Nat) : pcPoly K m 0 = 4096 := by
  cases m <;> rfl

/-- The coefficient that the step from order m appends. -/
theorem pcPoly_succ_last (m : Nat) : pcPoly K (m + 1) (m + 1) = q15ToQ12 (K m) := if_pos rfl

/-- The step up of A[i], for i below the new order. -/
theorem pcPoly_succ_of_ne {m i : Nat} (notFirst : i ≠ 0) (notLast : i ≠ m + 1) :
    pcPoly K (m + 1) i = trunc16 (pcPoly K m i + stepProduct (pcPoly K m (m + 1 - i)) (K m)) := by
  rw [pcPoly, if_neg notFirst, if_neg notLast, stepProduct, mul16]

/-- a[m-i] for i = 0, 1, ... is the reversed list of a[1..m]. -/
theorem reverse_pcStepUp (m : Nat) :
    (pcStepUp K m).reverse = (List.range' 1 m).map fun i => pcPoly K m (m + 1 - i) := by
  rw [pcStepUp, ← List.map_reverse, List.reverse_range', List.map_map, List.range'_eq_map_range,
    List.map_map]
  refine List.map_congr_left fun i _ => congrArg (pcPoly K m) ?_
  dsimp only
  omega

theorem pcStepUp_succ (m : Nat) : pcStepUp K (m + 1) = stepUpQ12 (pcStepUp K m) (K m) := by
  have middle : stepMiddle (K m) (pcStepUp K m) = (List.range' 1 m).map (pcPoly K (m + 1)) := by
    rw [stepMiddle, reverse_pcStepUp, pcStepUp, List.zipWith_map, List.zipWith_self]
    refine List.map_congr_left fun i inRange => ?_
    rw [List.mem_range'_1] at inRange
    exact (pcPoly_succ_of_ne K (by omega) (by omega)).symm
  rw [stepUpQ12, middle, ← pcPoly_succ_last, pcStepUp, List.range'_concat, List.map_append]
  simp [add_comm 1]

theorem foldl_stepUpQ12 (n : Nat) :
    ((List.range n).map K).foldl stepUpQ12 [] = pcStepUp K n := by
  induction n with
  | zero => rfl
  | succ n ih =>
    rw [pcStepUp_succ, ← ih, List.range_succ, List.map_append, List.foldl_append]
    rfl

theorem kToA_eq (n : Nat) : kToA ((List.range n).map K) = (List.range (n + 1)).map (pcPoly K n) := by
  rw [kToA, foldl_stepUpQ12, pcStepUp, List.range_eq_range', List.range'_succ, List.map_cons,
    pcPoly_at_zero]

/-! ### Zero coefficients (R153) -/

/-- A working value is an int16, so storing it again keeps it. -/
theorem trunc16_pcPoly (m i : Nat) : trunc16 (pcPoly K m i) = pcPoly K m i := by
  have idempotent (v : Int) : trunc16 (trunc16 v) = trunc16 v :=
    trunc16_of_range (trunc16_range v).1 (trunc16_range v).2
  cases m with
  | zero =>
    rw [pcPoly]
    split_ifs <;> rfl
  | succ m =>
    rw [pcPoly]
    split_ifs
    · rfl
    · exact idempotent _
    · exact idempotent _

theorem stepProduct_zero (a : Int) : stepProduct a 0 = 0 := by
  rw [stepProduct, mul16, mul_zero]
  rfl

/-- The step with a zero coefficient keeps every entry of the polynomial and appends 0. -/
theorem pcPoly_succ_of_zero {m : Nat} (zero : K m = 0) (i : Nat) :
    pcPoly K (m + 1) i = if i = m + 1 then 0 else pcPoly K m i := by
  split_ifs with last
  · rw [last, pcPoly_succ_last, zero]
    rfl
  · by_cases first : i = 0
    · rw [first, pcPoly_at_zero, pcPoly_at_zero]
    · rw [pcPoly_succ_of_ne K first last, zero, stepProduct_zero, add_zero, trunc16_pcPoly]

/-- Zero coefficients from index m on: the polynomial of order n is that of order m, then zeros. -/
theorem pcPoly_zero_padding {m n : Nat} (le : m ≤ n) (zeros : ∀ j, m ≤ j → j < n → K j = 0) {i : Nat}
    (below : i ≤ n) : pcPoly K n i = if i ≤ m then pcPoly K m i else 0 := by
  induction n, le using Nat.le_induction with
  | base => rw [if_pos below]
  | succ n le ih =>
    rw [pcPoly_succ_of_zero K (zeros n le n.lt_succ_self)]
    obtain rfl | old := Nat.eq_or_lt_of_le below
    · rw [if_pos rfl, if_neg (by omega)]
    · rw [if_neg old.ne, ih (fun j above before => zeros j above (by omega)) (by omega)]

end StepUp

/-! ### The command -/

/-- The coefficients of a state, indexed as the pseudocode does. -/
def pcReflection (s : State) (j : Nat) : Int := (s.k[j]?.getD 0).toInt

theorem firstInts_k {s : State} {n : Nat} (order : n ≤ 12) :
    firstInts s.k n = (List.range n).map (pcReflection s) := by
  apply List.ext_getElem
  · simpa using order
  · intro j inRange _
    rw [length_firstInts] at inRange
    simp [getElem_firstInts, pcReflection, show j < 12 by omega]

theorem exec_k2a {s : State} {n : Nat} (isLegal : legal (.k2a n)) :
    exec (.k2a n) s = .next (complete .ok 0 (k2aWrites n s)) :=
  if_pos (by simpa [legal, orderLegal] using isLegal)

/-- A after the polynomial of order n is written (R151). -/
theorem getElem_k2aWrites_a {s : State} {n : Nat} (order : n ≤ 12) {i : Nat} (h : i < 13) :
    (k2aWrites n s).a[i] = if i ≤ n then toHalf (pcPoly (pcReflection s) n i) else s.a[i] := by
  simp [getElem_writeFrom_zero, firstInts_k order, kToA_eq]

/-- The word of a K2A (30_encoding.md R81, R88). -/
theorem encode_k2a (n : Nat) : encode (.k2a n) = BitVec.ofNat 32 (0x3 + n * 2 ^ 4) := by
  simp only [encode, commandWord, Nat.zero_mul, Nat.add_zero]

/-! ### The obligations -/

/-- Settles O37: the fold over the coefficients ends with the pseudocode's array. -/
theorem k2aFollowsThePseudocode : Obligations.K2aFollowsThePseudocode := by
  refine fun s n => ⟨fun ⟨pos, order⟩ => ?legal,
    fun illegal => exec_of_not_legal (i := .k2a n) illegal s, fun fits => ?encoding⟩
  case legal => exact ⟨_, exec_k2a ⟨pos, order⟩, fun i h => getElem_k2aWrites_a order h, rfl⟩
  case encoding =>
    rw [← encode_k2a]
    refine runWord_of_decoded (decodeWord_encode ?_) s
    simp [Instr.wf, orderFits, fits]

/-- Settles O38: every step from order m on has a zero coefficient, so it keeps A[0..m] and appends 0. -/
theorem k2aZeroPaddingIsHarmless : Obligations.K2aZeroPaddingIsHarmless := by
  intro s t u m n pos le order zeros runT runU i h
  have zeroCoefs (j : Nat) (above : m ≤ j) (below : j < n) : pcReflection s j = 0 := by
    have inArray : j < 12 := by omega
    simp [pcReflection, inArray, zeros j inArray above below]
  have padded {i : Nat} := pcPoly_zero_padding (pcReflection s) le zeroCoefs (i := i)
  rw [exec_k2a ⟨pos, le.trans order⟩] at runT
  rw [exec_k2a ⟨pos.trans le, order⟩] at runU
  cases runT
  cases runU
  simp only [complete_a, getElem_k2aWrites_a order, getElem_k2aWrites_a (le.trans order)]
  refine ⟨fun inside => ?low, fun above below => ?high⟩
  case low => rw [if_pos (inside.trans le), if_pos inside, padded (inside.trans le), if_pos inside]
  case high =>
    rw [if_pos below, padded below, if_neg above.not_ge]
    rfl

end Sys2Proof.Proofs
end

section
/-! NOISE (44_noise.md R161 to R163): the seeds are the iterates of one update, and entry i of the buffer
is the table value the iterate i + 1 indexes. -/

namespace Sys2Proof.Proofs
open Sys2Proof Sys2Proof.Machine

/-! ### The seeds -/

theorem lcgAfter_eq_iterate (seed : BitVec 31) (n : Nat) : lcgAfter seed n = lcgNext^[n] seed := by
  induction n generalizing seed with
  | zero => rfl
  | succ n ih => exact ih (lcgNext seed)

theorem toNat_lcgAfter_succ (seed : BitVec 31) (n : Nat) :
    (lcgAfter seed (n + 1)).toNat = ((lcgAfter seed n).toNat * 69069 + 1) % 2 ^ 31 := by
  simp only [lcgAfter_eq_iterate, Function.iterate_succ_apply', lcgNext, BitVec.toNat_ofNat]

theorem lcgAfter_add (seed : BitVec 31) (m n : Nat) :
    lcgAfter seed (m + n) = lcgAfter (lcgAfter seed m) n := by
  simp only [lcgAfter_eq_iterate, Nat.add_comm m, Function.iterate_add_apply]

/-! ### The samples -/

/-- A shifted seed is below 512, so the model's reduction to a table index keeps it (R161). -/
theorem noiseIndex_eq (nidx : Bool) (seed : BitVec 31) :
    ∃ h : seed.toNat / 2 ^ (if nidx then 22 else 23) < 512,
      noiseIndex nidx seed = ⟨seed.toNat / 2 ^ (if nidx then 22 else 23), h⟩ := by
  have inTable : seed.toNat / 2 ^ (if nidx then 22 else 23) < 512 := by
    have bound := seed.isLt
    split <;> omega
  refine ⟨inTable, Fin.ext ?_⟩
  rw [noiseIndex, Fin.val_ofNat, Nat.shiftRight_eq_div_pow, Nat.mod_eq_of_lt inTable]

theorem getElem_noiseSamples (nidx : Bool) (seed : BitVec 31) (n i : Nat)
    (h : i < (noiseSamples nidx seed n).length) :
    (noiseSamples nidx seed n)[i] = Config.noiseTable (noiseIndex nidx (lcgAfter seed (i + 1))) := by
  induction n generalizing seed i with
  | zero => exact absurd h (Nat.not_lt_zero i)
  | succ n ih =>
    cases i with
    | zero => rfl
    | succ i =>
      rw [lcgAfter, ← ih (lcgNext seed) i (Nat.lt_of_succ_lt_succ h)]
      rfl

/-! ### The command -/

theorem exec_noise {s : State} {l : Nat} {d : Buf} (isLegal : legal (.noise l d)) :
    exec (.noise l d) s = .next (complete .ok 0 (noiseWrites l d s)) :=
  if_pos (by simpa [legal, lenLegal] using isLegal)

theorem readSample_noiseWrites (s : State) (d : Buf) {l i : Nat} (inside : i < l) :
    readSample (noiseWrites l d s).mem d i =
      some (Config.noiseTable (noiseIndex s.modes.nidx (lcgAfter s.seed (i + 1)))) := by
  simp [readSample_writeSamples, inside, getElem_noiseSamples]

theorem readByte_noiseWrites {s : State} {l : Nat} {d : Buf} {x : Nat} (outside : outsideSamples d l x) :
    readByte (noiseWrites l d s).mem x = readByte s.mem x :=
  readByte_writeSamples fun i _ below => outside i (by simpa using below)

/-- The word of a NOISE (30_encoding.md R81, R88). -/
theorem encode_noise (l : Nat) (d : Buf) :
    encode (.noise l d) = BitVec.ofNat 32 (0x4 + l * 2 ^ 8 + bitOfBuf d * 2 ^ 19) := by
  simp only [encode, commandWord, Nat.zero_mul, Nat.add_zero]

/-! ### The obligations -/

/-- Settles O39: the sequence of seeds is the iterates of the update from SEED. -/
theorem noiseDrawsFromTheTable : Obligations.NoiseDrawsFromTheTable := by
  refine fun s l d => ⟨fun isLegal => ?legal,
    fun illegal => exec_of_not_legal (i := .noise l d) illegal s, fun fits => ?encoding⟩
  case legal =>
    refine ⟨_, fun i => (lcgAfter s.seed i).toNat, exec_noise isLegal, rfl, toNat_lcgAfter_succ s.seed,
      rfl, fun i inside => ?_, fun x outside => readByte_noiseWrites outside, rfl⟩
    obtain ⟨inTable, index⟩ := noiseIndex_eq s.modes.nidx (lcgAfter s.seed (i + 1))
    exact ⟨inTable, index ▸ readSample_noiseWrites s d inside⟩
  case encoding =>
    rw [← encode_noise]
    refine runWord_of_decoded (decodeWord_encode ?_) s
    simp [Instr.wf, lenFits, fits]

/-- Settles O40: the second command starts from the seed after m updates, so its update i + 1 is the
update m + i + 1 of the one command, with the same NIDX. -/
theorem noiseSplits : Obligations.NoiseSplits := by
  intro s t u v m n d p posM posN len runT modes runU runV
  rw [exec_noise ⟨posM, by omega⟩] at runT
  cases runT
  rw [exec_noise ⟨posN, by omega⟩] at runU
  cases runU
  rw [exec_noise ⟨by omega, len⟩] at runV
  cases runV
  refine ⟨lcgAfter_add s.seed m n, fun i inside => ?first, fun i inside => ?second⟩
  case first =>
    rw [complete_mem, complete_mem, readSample_noiseWrites s d inside,
      readSample_noiseWrites s d (by omega)]
  case second =>
    rw [complete_mem, complete_mem, readSample_noiseWrites s d (by omega),
      readSample_noiseWrites _ d inside, Nat.add_assoc, lcgAfter_add, modes]
    rfl

end Sys2Proof.Proofs
end

section
/-! SYNTH (45_synthesis.md R171 to R178): each stream of the filter is one wrapped sum over the past of a
signal, the signal h(k) of R173 is the filter state followed by the outputs, and shifting outputs into the
state moves the origin of the signal. -/

namespace Sys2Proof.Proofs
open Sys2Proof Sys2Proof.Machine

/-! ### The width of the accumulator (R178) -/

theorem wrap32_add_mul (v m : Int) : wrap32 (v + m * 2 ^ 32) = wrap32 v :=
  Int.add_mul_bmod_self_right v m (2 ^ 32)

theorem trunc16_add_mul (v m : Int) : trunc16 (v + m * 2 ^ 16) = trunc16 v :=
  Int.add_mul_bmod_self_right v m (2 ^ 16)

theorem trunc16_trunc16 (v : Int) : trunc16 (trunc16 v) = trunc16 v :=
  trunc16_of_range (trunc16_range v).1 (trunc16_range v).2

theorem filterOutput_add_mul (rnd o m : Int) : filterOutput rnd (o + m * 2 ^ 32) = filterOutput rnd o := by
  rw [filterOutput, add_right_comm, wrap32_add_mul, filterOutput]

theorem filterResidual_add_mul (rnd o m : Int) :
    filterResidual rnd (o + m * 2 ^ 32) = filterResidual rnd o := by
  have multiple : o + m * 2 ^ 32 - filterOutput rnd o * 4096 =
      o - filterOutput rnd o * 4096 + (m * 2 ^ 16) * 2 ^ 16 := by ring
  rw [filterResidual, filterOutput_add_mul, multiple, trunc16_add_mul, filterResidual]

/-! ### The streams (R172) -/

/-- What a stream takes off its accumulator, exact: the sum of A[j]*h(i-j) over j = 1..N, where entry
j - 1 of the list is h(i-j). `filterAcc_eq` ties it to the model's wrapped subtractions. -/
def streamSum (A : Nat → Int) (n : Nat) (past : List Int) : Int :=
  ∑ j ∈ Finset.Icc 1 n, A j * past.getD (j - 1) 0

/-- A[1..N] as the list that the model's filter takes. -/
def coefList (A : Nat → Int) (n : Nat) : List Int := (List.range n).map fun j => A (j + 1)

theorem streamSum_eq_sum_range (A : Nat → Int) (n : Nat) (past : List Int) :
    streamSum A n past = ∑ j ∈ Finset.range n, A (j + 1) * past.getD j 0 := by
  rw [Finset.range_eq_Ico]
  exact (Finset.sum_Ico_add' (fun j => A j * past.getD (j - 1) 0) 0 n 1).symm

theorem sum_products_eq_streamSum (A : Nat → Int) (n : Nat) (past : List Int) :
    ((List.zip (coefList A n) past).map fun p => mul16 p.1 p.2).sum = streamSum A n past := by
  rw [streamSum_eq_sum_range]
  induction n generalizing A past with
  | zero => rfl
  | succ n ih =>
    cases past with
    | nil => simp
    | cons h past =>
      have tail := ih (fun j => A (j + 1)) past
      simp only [coefList] at tail
      rw [Finset.sum_range_succ', coefList, List.range_succ_eq_map, List.map_cons, List.map_map,
        List.zip_cons_cons, List.map_cons, List.sum_cons, add_comm]
      exact congrArg (· + mul16 (A 1) h) tail

theorem filterAcc_eq (start : Int) (A : Nat → Int) (n : Nat) (past : List Int) :
    filterAcc (wrap32 start) (coefList A n) past = wrap32 (start - streamSum A n past) := by
  have sum := foldl_wrap32_add id start
    (((List.zip (coefList A n) past).map fun p => mul16 p.1 p.2).map Neg.neg)
  rw [List.map_id, ← List.sum_neg, sum_products_eq_streamSum, List.map_map, List.foldl_map] at sum
  exact sum

/-- The accumulator of one output: of the wraps of R172 only the low stream's is not absorbed by the last
(R178). -/
theorem filterSum_eq (A : Nat → Int) (n : Nat) (pastHi pastLo : List Int) (x : Int) :
    filterSum (coefList A n) pastHi pastLo x =
      wrap32 (x * 4096 - streamSum A n pastHi + asr (wrap32 (-streamSum A n pastLo)) 12) := by
  have low := filterAcc_eq 0 A n pastLo
  rw [zero_sub] at low
  rw [filterSum, filterAcc_eq, ← low, add_comm, wrap32_add_wrap32, add_comm]
  rfl

/-- Zero coefficients take nothing off (R177). -/
theorem streamSum_zero_padding {A : Nat → Int} {m n : Nat} (le : m ≤ n)
    (zeros : ∀ j, m < j → j ≤ n → A j = 0) : streamSum A m = streamSum A n := by
  funext past
  refine Finset.sum_subset (Finset.Icc_subset_Icc_right le) fun j inside outside => ?_
  rw [Finset.mem_Icc] at inside outside
  rw [zeros j (by omega) inside.2, zero_mul]

theorem streamSum_congr {A : Nat → Int} {n : Nat} {past past' : List Int}
    (agree : ∀ j < n, past.getD j 0 = past'.getD j 0) : streamSum A n past = streamSum A n past' := by
  rw [streamSum_eq_sum_range, streamSum_eq_sum_range]
  exact Finset.sum_congr rfl fun j below => by rw [agree j (Finset.mem_range.1 below)]

/-! ### The outputs in order (R173) -/

theorem filterLoop_append (rnd : Int) (as xs zs pastHi pastLo : List Int) :
    filterLoop rnd as (xs ++ zs) pastHi pastLo =
      filterLoop rnd as xs pastHi pastLo ++
        filterLoop rnd as zs
          (((filterLoop rnd as xs pastHi pastLo).map Prod.fst).reverse ++ pastHi)
          (((filterLoop rnd as xs pastHi pastLo).map Prod.snd).reverse ++ pastLo) := by
  induction xs generalizing pastHi pastLo with
  | nil => rfl
  | cons x xs ih => simp [filterLoop, ih]

/-- One output of the filter, from the outputs before it. -/
theorem getElem_filterLoop (rnd : Int) (as xs pastHi pastLo : List Int) (i : Nat) (h : i < xs.length) :
    let ys := filterLoop rnd as xs pastHi pastLo
    let o := filterSum as (((ys.map Prod.fst).take i).reverse ++ pastHi)
      (((ys.map Prod.snd).take i).reverse ++ pastLo) xs[i]
    ys[i]'(by simpa [ys] using h) = (filterOutput rnd o, filterResidual rnd o) := by
  induction xs generalizing pastHi pastLo i with
  | nil => exact absurd h (Nat.not_lt_zero i)
  | cons x xs ih =>
    cases i with
    | zero => rfl
    | succ i => simpa [filterLoop] using ih _ _ i (Nat.lt_of_succ_lt_succ h)

/-- Coefficients that give the same accumulators give the same outputs. -/
theorem filterLoop_congr_coefs {as bs : List Int} (same : filterSum as = filterSum bs) (rnd : Int)
    (xs pastHi pastLo : List Int) :
    filterLoop rnd as xs pastHi pastLo = filterLoop rnd bs xs pastHi pastLo := by
  induction xs generalizing pastHi pastLo with
  | nil => rfl
  | cons x xs ih => rw [filterLoop, filterLoop, same, ih]

/-- Pasts that agree as far as the filter's order reaches give the same outputs. -/
theorem filterLoop_congr_past (rnd : Int) (A : Nat → Int) (n : Nat) (xs : List Int)
    {pastHi pastHi' pastLo pastLo' : List Int}
    (agreeHi : ∀ j < n, pastHi.getD j 0 = pastHi'.getD j 0)
    (agreeLo : ∀ j < n, pastLo.getD j 0 = pastLo'.getD j 0) :
    filterLoop rnd (coefList A n) xs pastHi pastLo =
      filterLoop rnd (coefList A n) xs pastHi' pastLo' := by
  have agree_cons {p q : List Int} (agree : ∀ j < n, p.getD j 0 = q.getD j 0) (y : Int) :
      ∀ j < n, (y :: p).getD j 0 = (y :: q).getD j 0
    | 0, _ => rfl
    | j + 1, below => agree j (Nat.lt_of_succ_lt below)
  induction xs generalizing pastHi pastHi' pastLo pastLo' with
  | nil => rfl
  | cons x xs ih =>
    have sameSum : filterSum (coefList A n) pastHi pastLo x =
        filterSum (coefList A n) pastHi' pastLo' x := by
      rw [filterSum_eq, filterSum_eq, streamSum_congr agreeHi, streamSum_congr agreeLo]
    rw [filterLoop, filterLoop, sameSum, ih (agree_cons agreeHi _) (agree_cons agreeLo _)]

/-- Every output and every residual is an int16. -/
theorem int16_of_mem_filterLoop {rnd : Int} {as xs pastHi pastLo : List Int} {p : Int × Int}
    (h : p ∈ filterLoop rnd as xs pastHi pastLo) : trunc16 p.1 = p.1 ∧ trunc16 p.2 = p.2 := by
  induction xs generalizing pastHi pastLo with
  | nil => cases h
  | cons x xs ih =>
    obtain rfl | later := List.mem_cons.1 h
    · exact ⟨trunc16_trunc16 _, trunc16_trunc16 _⟩
    · exact ih later

/-! ### The signal (R173, R174) -/

/-- h(k) of R173 for k from -12 on: the state array, then the outputs. -/
def signal (v : Vector Half 12) (ys : List Int) (k : Int) : Int :=
  (firstInts v 12 ++ ys).getD (k + 12).toNat 0

theorem signal_state (v : Vector Half 12) (ys : List Int) {k : Nat} (h : k < 12) :
    signal v ys ((k : Int) - 12) = v[k].toInt := by
  rw [signal, sub_add_cancel, Int.toNat_natCast, List.getD_append _ _ _ _ (by simpa using h),
    List.getD_eq_getElem _ _ (by simpa using h), getElem_firstInts]

theorem signal_output (v : Vector Half 12) {ys : List Int} {i : Nat} (h : i < ys.length) :
    signal v ys i = ys[i] := by
  have index : ((i : Int) + 12).toNat = 12 + i := by omega
  rw [signal, index, List.getD_append_right _ _ _ _ (by simp), List.getD_eq_getElem _ _ (by simpa using h)]
  simp

/-- The past of output i, newest first, is the signal read backwards. -/
theorem getD_past (v : Vector Half 12) {ys : List Int} {i j : Nat} (outputs : i ≤ ys.length)
    (pos : 1 ≤ j) (order : j ≤ 12) :
    ((ys.take i).reverse ++ (firstInts v 12).reverse).getD (j - 1) 0 = signal v ys ((i : Int) - j) := by
  have len : (firstInts v 12 ++ ys.take i).length = 12 + i := by simp [outputs]
  have back : 12 + i - 1 - (j - 1) = ((i : Int) - j + 12).toNat := by omega
  have before : ((i : Int) - j + 12).toNat < 12 + i := by omega
  have upToOutput : firstInts v 12 ++ ys.take i = (firstInts v 12 ++ ys).take (12 + i) := by
    simp [List.take_append]
  rw [← List.reverse_append, List.getD_reverse _ (by omega), len, back, upToOutput, signal,
    List.getD_eq_getElem?_getD, List.getElem?_take_of_lt before, ← List.getD_eq_getElem?_getD]

theorem toList_shiftIn (v : Vector Half 12) (hs : List Half) :
    (shiftIn v hs).toList = (v.toList ++ hs).drop hs.length := by
  apply List.ext_getElem
  · simp
  · intro k inRange _
    rw [Vector.length_toList] at inRange
    rw [Vector.getElem_toList]
    exact (getElem_writeFrom_zero ..).trans (dif_pos (by simpa using inRange))

theorem toHalf_toInt (h : Half) : toHalf h.toInt = h := BitVec.ofInt_toInt

theorem map_toHalf_firstInts (v : Vector Half 12) : (firstInts v 12).map toHalf = v.toList := by
  have whole : v.toList.take 12 = v.toList := List.take_of_length_le (by simp)
  rw [firstInts, whole, List.map_map]
  exact List.map_id'' toHalf_toInt _

/-- The new state is the end of the signal (R174). -/
theorem getElem_shiftIn (v : Vector Half 12) (ys : List Int) {k : Nat} (h : k < 12) :
    (shiftIn v (ys.map toHalf))[k] = toHalf (signal v ys ((ys.length : Int) - 12 + k)) := by
  have index : ((ys.length : Int) - 12 + k + 12).toNat = ys.length + k := by omega
  rw [← Vector.getElem_toList (by simpa using h), List.getElem_of_eq (toList_shiftIn ..), signal, index,
    List.getD_eq_getElem _ _ (by simp; omega), ← List.getElem_map toHalf (h := by simp; omega)]
  simp only [List.getElem_drop, List.map_append, map_toHalf_firstInts, List.length_map]

/-- With int16 outputs, the new state reads as the end of state and outputs. -/
theorem firstInts_shiftIn (v : Vector Half 12) {ys : List Int} (int16 : ∀ y ∈ ys, trunc16 y = y) :
    firstInts (shiftIn v (ys.map toHalf)) 12 = (firstInts v 12 ++ ys).drop ys.length := by
  have outputs : (ys.map toHalf).map BitVec.toInt = ys := by
    rw [List.map_map]
    exact (List.map_congr_left fun y isOutput => (toInt_toHalf y).trans (int16 y isOutput)).trans
      (List.map_id' ys)
  have whole (w : Vector Half 12) : firstInts w 12 = w.toList.map BitVec.toInt := by
    rw [firstInts, List.take_of_length_le (by simp)]
  rw [whole, toList_shiftIn, List.map_drop, List.map_append, outputs, ← whole, List.length_map]

/-- Shifting outputs into the state moves the origin of the signal (R177). -/
theorem signal_shiftIn (v : Vector Half 12) {ys : List Int} (int16 : ∀ y ∈ ys, trunc16 y = y)
    (zs : List Int) {k : Int} (inSignal : -12 ≤ k) :
    signal (shiftIn v (ys.map toHalf)) zs k = signal v (ys ++ zs) (ys.length + k) := by
  have index : ((ys.length : Int) + k + 12).toNat = ys.length + (k + 12).toNat := by omega
  rw [signal, firstInts_shiftIn v int16, ← List.drop_append_of_le_length (by simp), signal, index,
    List.append_assoc, List.getD_eq_getElem?_getD, List.getElem?_drop, ← List.getD_eq_getElem?_getD]

/-- Two shifts one after the other are one shift (R174). -/
theorem shiftIn_append (v : Vector Half 12) {ys : List Int} (int16 : ∀ y ∈ ys, trunc16 y = y)
    (zs : List Int) :
    shiftIn v ((ys ++ zs).map toHalf) = shiftIn (shiftIn v (ys.map toHalf)) (zs.map toHalf) := by
  apply Vector.ext
  intro k h
  rw [getElem_shiftIn _ _ h, getElem_shiftIn _ _ h, signal_shiftIn v int16 zs (by omega),
    List.length_append]
  congr 2
  omega

/-- After outputs were shifted in, the state holds the past that the next output needs (R173). -/
theorem getD_state_of_shiftIn (v : Vector Half 12) {ys : List Int} (int16 : ∀ y ∈ ys, trunc16 y = y)
    {j : Nat} (below : j < 12) :
    (firstInts (shiftIn v (ys.map toHalf)) 12).reverse.getD j 0 =
      (ys.reverse ++ (firstInts v 12).reverse).getD j 0 := by
  have state := getD_past (shiftIn v (ys.map toHalf)) (ys := []) (i := 0) (j := j + 1) le_rfl
    (by omega) below
  have outputs := getD_past v (ys := ys) (i := ys.length) (j := j + 1) le_rfl (by omega) below
  rw [signal_shiftIn v int16 [] (by omega), List.append_nil] at state
  rw [List.take_length] at outputs
  exact (state.trans (congrArg (signal v ys) (by omega))).trans outputs.symm

/-! ### The command -/

/-- The coefficients of a state, indexed as the pseudocode does. -/
def coefficient (a : Vector Half 13) (j : Nat) : Int := (a[j]?.getD 0).toInt

/-- The filter's coefficients are A[1..N]; an order above 12, which no legal command has, gives A[1..12]. -/
theorem drop_firstInts_a (a : Vector Half 13) (n : Nat) :
    (firstInts a (n + 1)).drop 1 = coefList (coefficient a) (min n 12) := by
  apply List.ext_getElem
  · simp only [coefList, List.length_drop, length_firstInts, List.length_map, List.length_range]
    omega
  · intro j inRange _
    simp only [List.length_drop, length_firstInts] at inRange
    simp [coefList, coefficient, getElem_firstInts, show j + 1 < 13 by omega]

theorem synthOutputs_eq (n : Nat) (xs : List Int) (s : State) :
    synthOutputs n xs s = filterLoop (rounding s.modes.arrnd) (coefList (coefficient s.a) (min n 12)) xs
      (firstInts s.fshi 12).reverse (firstInts s.fslo 12).reverse := by
  rw [synthOutputs, drop_firstInts_a]

theorem int16_synthOutputs (n : Nat) (xs : List Int) (s : State) :
    (∀ y ∈ (synthOutputs n xs s).map Prod.fst, trunc16 y = y) ∧
      ∀ ylo ∈ (synthOutputs n xs s).map Prod.snd, trunc16 ylo = ylo := by
  constructor <;> intro y isOutput <;> obtain ⟨p, isPair, rfl⟩ := List.mem_map.1 isOutput
  · exact (int16_of_mem_filterLoop isPair).1
  · exact (int16_of_mem_filterLoop isPair).2

theorem synthWrites_fshi_eq (d : Buf) (ys : List (Int × Int)) (s : State) :
    (synthWrites d ys s).fshi = shiftIn s.fshi ((ys.map Prod.fst).map toHalf) := by
  rw [synthWrites_fshi, List.map_map]
  rfl

theorem synthWrites_fslo_eq (d : Buf) (ys : List (Int × Int)) (s : State) :
    (synthWrites d ys s).fslo = shiftIn s.fslo ((ys.map Prod.snd).map toHalf) := by
  rw [synthWrites_fslo, List.map_map]
  rfl

theorem exec_synth {s : State} {n l : Nat} {b d : Buf} {xs : List Int}
    (isLegal : legal (.synth n l b d)) (read : inputSamples s b l = some xs) :
    exec (.synth n l b d) s = .next (complete .ok 0 (synthWrites d (synthOutputs n xs s) s)) := by
  obtain ⟨pos, order, nonempty, len⟩ := isLegal
  show execSynth n l b d s = _
  simp [execSynth, orderLegal, lenLegal, pos, order, nonempty, len, read]

/-- The accumulator of output i over indexed signals, as R172 writes it. `signal_synthOutputs` ties it to
the model's. -/
def pcAccumulator (A : Nat → Int) (n : Nat) (y ylo : Int → Int) (x : Int) (i : Nat) : Int :=
  wrap32 (x * 4096 - (∑ j ∈ Finset.Icc 1 n, A j * y ((i : Int) - j)) +
    asr (wrap32 (-∑ j ∈ Finset.Icc 1 n, A j * ylo ((i : Int) - j))) 12)

theorem streamSum_past (A : Nat → Int) {n : Nat} (order : n ≤ 12) (v : Vector Half 12) {ys : List Int}
    {i : Nat} (outputs : i ≤ ys.length) :
    streamSum A n ((ys.take i).reverse ++ (firstInts v 12).reverse) =
      ∑ j ∈ Finset.Icc 1 n, A j * signal v ys ((i : Int) - j) := by
  refine Finset.sum_congr rfl fun j inRange => ?_
  rw [Finset.mem_Icc] at inRange
  rw [getD_past v outputs inRange.1 (inRange.2.trans order)]

/-- The outputs and residuals of a SYNTH satisfy the recurrence of R172. -/
theorem signal_synthOutputs (s : State) {n : Nat} (order : n ≤ 12) (xs : List Int) (i : Nat)
    (h : i < xs.length) :
    let y := signal s.fshi ((synthOutputs n xs s).map Prod.fst)
    let ylo := signal s.fslo ((synthOutputs n xs s).map Prod.snd)
    let o := pcAccumulator (coefficient s.a) n y ylo xs[i] i
    y i = filterOutput (rounding s.modes.arrnd) o ∧ ylo i = filterResidual (rounding s.modes.arrnd) o := by
  intro y ylo o
  have inHi : i < ((synthOutputs n xs s).map Prod.fst).length := by simpa using h
  have inLo : i < ((synthOutputs n xs s).map Prod.snd).length := by simpa using h
  have step := getElem_filterLoop (rounding s.modes.arrnd) (coefList (coefficient s.a) n) xs
    (firstInts s.fshi 12).reverse (firstInts s.fslo 12).reverse i h
  have outputs := synthOutputs_eq n xs s
  rw [min_eq_left order] at outputs
  simp only [← outputs] at step
  rw [filterSum_eq, streamSum_past _ order _ inHi.le, streamSum_past _ order _ inLo.le] at step
  constructor
  · exact (signal_output _ inHi).trans (List.getElem_map ..|>.trans (congrArg Prod.fst step))
  · exact (signal_output _ inLo).trans (List.getElem_map ..|>.trans (congrArg Prod.snd step))

theorem readSample_synthWrites (s : State) (d : Buf) {ys : List (Int × Int)} {i : Nat}
    (inside : i < ys.length) :
    readSample (synthWrites d ys s).mem d i =
      some (toHalf (signal s.fshi (ys.map Prod.fst) i)) := by
  rw [signal_output _ (by simpa using inside)]
  simp [readSample_writeSamples, inside]

theorem readByte_synthWrites {s : State} {d : Buf} {ys : List (Int × Int)} {z : Nat}
    (outside : outsideSamples d ys.length z) :
    readByte (synthWrites d ys s).mem z = readByte s.mem z :=
  readByte_writeSamples fun i _ below => outside i (by simpa using below)

/-- The word of a SYNTH (30_encoding.md R81, R88). -/
theorem encode_synth (n l : Nat) (b d : Buf) :
    encode (.synth n l b d) =
      BitVec.ofNat 32 (0x5 + n * 2 ^ 4 + l * 2 ^ 8 + bitOfBuf b * 2 ^ 18 + bitOfBuf d * 2 ^ 19) := rfl

/-! ### The obligations -/

/-- Settles O41: the signals of the outputs and residuals are the spec's y and ylo. -/
theorem synthFiltersTheSamples : Obligations.SynthFiltersTheSamples := by
  refine fun s n l b d x => ⟨fun isLegal holds => ?legal,
    fun illegal => exec_of_not_legal (i := .synth n l b d) illegal s, fun order len => ?encoding⟩
  case legal =>
    have ⟨_, order, _, _⟩ := isLegal
    have run := exec_synth (d := d) isLegal (inputSamples_of_holdsSamples holds)
    generalize inputs : (List.range l).map x = xs at run
    have len : (synthOutputs n xs s).length = l := by simp [← inputs]
    refine ⟨_, signal s.fshi ((synthOutputs n xs s).map Prod.fst),
      signal s.fslo ((synthOutputs n xs s).map Prod.snd), run,
      fun k h => ⟨signal_state _ _ h, signal_state _ _ h⟩, fun i inside => ?recurrence,
      fun i inside => readSample_synthWrites s d (inside.trans_eq len.symm), fun k h => ⟨?hi, ?lo⟩,
      fun z outside => readByte_synthWrites (by rwa [len]), rfl⟩
    case recurrence =>
      obtain ⟨output, residual⟩ := signal_synthOutputs s order xs i (by simpa [← inputs] using inside)
      have input : xs[i]'(by simpa [← inputs] using inside) = x i := by simp [← inputs]
      rw [input] at output residual
      refine ⟨output, ?_⟩
      rw [output]
      exact residual
    case hi => rw [complete_fshi, synthWrites_fshi_eq, getElem_shiftIn _ _ h, List.length_map, len]
    case lo => rw [complete_fslo, synthWrites_fslo_eq, getElem_shiftIn _ _ h, List.length_map, len]
  case encoding =>
    rw [← encode_synth]
    refine runWord_of_decoded (decodeWord_encode ?_) s
    simp [Instr.wf, orderFits, lenFits, order, len]

/-- Settles O42: the outputs depend on A only through the list of A[1..N]. -/
theorem synthReadsOnlyItsCoefficients : Obligations.SynthReadsOnlyItsCoefficients := by
  intro s t a' n l b d agree run
  obtain ⟨illegal, rfl⟩ | ⟨⟨pos, order⟩, ⟨nonempty, len⟩, xs, read, rfl⟩ := execSynth_next run
  · exact exec_of_not_legal (i := .synth n l b d) (by simpa [legal, and_assoc] using illegal) _
  · have sameCoefs : coefList (coefficient a') (min n 12) = coefList (coefficient s.a) (min n 12) := by
      refine List.map_congr_left fun j inRange => ?_
      rw [List.mem_range] at inRange
      have inArray : j + 1 < 13 := by omega
      simp [coefficient, inArray, agree (j + 1) inArray (by omega) (by omega)]
    have sameOutputs : synthOutputs n xs { s with a := a' } = synthOutputs n xs s := by
      rw [synthOutputs_eq, synthOutputs_eq, sameCoefs]
      rfl
    rw [exec_synth (s := { s with a := a' }) ⟨pos, order, nonempty, len⟩ read, sameOutputs]
    rfl

/-- Settles O43: zero coefficients take nothing off either stream, so every accumulator is the same. -/
theorem synthZeroPaddingIsHarmless : Obligations.SynthZeroPaddingIsHarmless := by
  intro s n l b d pos order zeros
  have zeroCoefs (j : Nat) (above : n < j) (below : j ≤ 12) : coefficient s.a j = 0 := by
    have inArray : j < 13 := by omega
    simp [coefficient, inArray, zeros j inArray above]
  have sameSums : filterSum (coefList (coefficient s.a) n) = filterSum (coefList (coefficient s.a) 12) := by
    funext pastHi pastLo x
    rw [filterSum_eq, filterSum_eq, streamSum_zero_padding order zeroCoefs]
  have sameOutputs (xs : List Int) : synthOutputs n xs s = synthOutputs 12 xs s := by
    rw [synthOutputs_eq, synthOutputs_eq, min_eq_left order, min_self, filterLoop_congr_coefs sameSums]
  have orders : orderLegal n = orderLegal 12 := by simp [orderLegal, pos, order]
  show execSynth n l b d s = execSynth 12 l b d s
  simp only [execSynth, orders, sameOutputs]

/-- Settles O44: the state after the first part holds the past that the second part needs, and shifting
in one part after the other is shifting in the whole. -/
theorem synthSplits : Obligations.SynthSplits := by
  intro s n xs zs d first mid whole
  obtain ⟨int16Hi, int16Lo⟩ := int16_synthOutputs n xs s
  have pastHi (j : Nat) (below : j < min n 12) := getD_state_of_shiftIn s.fshi int16Hi (j := j) (by omega)
  have pastLo (j : Nat) (below : j < min n 12) := getD_state_of_shiftIn s.fslo int16Lo (j := j) (by omega)
  have outputs : whole = first ++ synthOutputs n zs mid := by
    rw [synthOutputs_eq n zs mid, synthWrites_fshi_eq, synthWrites_fslo_eq,
      filterLoop_congr_past _ _ _ zs pastHi pastLo]
    simp only [whole, first, synthOutputs_eq, filterLoop_append]
    rfl
  refine ⟨outputs, ?_, ?_⟩
  · rw [outputs, synthWrites_fshi_eq, synthWrites_fshi_eq, synthWrites_fshi_eq, List.map_append,
      shiftIn_append _ int16Hi]
  · rw [outputs, synthWrites_fslo_eq, synthWrites_fslo_eq, synthWrites_fslo_eq, List.map_append,
      shiftIn_append _ int16Lo]

/-- Settles O45: the multiple passes through the wrap of the output, and is a multiple of 2^16 in the
residual. -/
theorem synthAccumulatorWidthIsIrrelevant : Obligations.SynthAccumulatorWidthIsIrrelevant :=
  fun rnd o m => ⟨filterOutput_add_mul rnd o m, filterResidual_add_mul rnd o m⟩

end Sys2Proof.Proofs
end

section
/-! The step by its next event, and the control commands (46_control.md R190 to R192): one equation per
kind of event, and the words and writes that put a command before the engine. -/

namespace Sys2Proof.Proofs
open Sys2Proof Sys2Proof.Machine

/-! ### The step by its next event (R192) -/

theorem step_of_exhausted {s : State} (h : s.schedule = []) : step s = engineStep s := by
  rw [step, h]

theorem step_of_event {s : State} {e : Event} {rest : List Event} (h : s.schedule = e :: rest) :
    step s = runEvent e { s with schedule := rest } := by
  rw [step, h]

theorem engineStep_of_pending {s : State} {p : Pending} (pending : s.pending = some p)
    (busy : s.status.busy = true) : engineStep s = runWord p.word s := by
  simp only [engineStep, pending, busy, if_true]

/-- Settles O5: the clauses about decoded and illegal words are the ones about the pending word, with
what `runWord` does of it. -/
theorem stepRunsDecodedCommand : Obligations.StepRunsDecodedCommand := by
  intro s
  have turn {p : Pending} {rest : List Event} (pending : s.pending = some p)
      (busy : s.status.busy = true) (next : s.schedule = .engine :: rest) :
      step s = runWord p.word { s with schedule := rest } := by
    rw [step_of_event next]
    exact engineStep_of_pending pending busy
  have fair {p : Pending} (pending : s.pending = some p) (busy : s.status.busy = true)
      (next : s.schedule = []) : step s = runWord p.word s := by
    rw [step_of_exhausted next, engineStep_of_pending pending busy]
  refine ⟨fun p i rest pending busy decoded => ⟨fun next => ?_, fun next => ?_⟩,
    fun p rest pending busy => ⟨turn pending busy, fair pending busy⟩,
    fun p rest e pending busy illegal next => ?_, fun x l rest next => step_of_event next,
    fun x l v rest next => step_of_event next⟩
  · rw [turn pending busy next, runWord_of_decoded decoded]
  · rw [fair pending busy next, runWord_of_decoded decoded]
  · rw [turn pending busy next, runWord_of_illegal illegal]

/-! ### Issue (R191) -/

/-- A staged word is pending at the engine's turn, which leaves the rest of the schedule (log 2). -/
theorem step_stagedWord (w : Word) (s : State) : step (stagedWord w s) = runWord w (issue w s) := by
  rw [step_of_event (rest := s.schedule) rfl]
  exact engineStep_of_pending (p := ⟨w, s.ctrl.modes⟩) (s := issue w s) rfl rfl

theorem decodeWord_of_decodeTableWord {nbits w : Nat} {i : Instr} (h : decodeTableWord nbits w = some i) :
    decodeWord (BitVec.ofNat 32 (w % 2 ^ nbits)) = .ok i := by
  rw [decodeTableWord, decodeBytes_wordBytes] at h
  split at h
  · next decoded => rw [decoded, Option.some.inj h]
  · cases h

/-- Settles O6: the step of a staged word, which the table's decoder reads as `decodeWord` does. -/
theorem stagedWordIsTheNextCommand : Obligations.StagedWordIsTheNextCommand := by
  intro s nbits w i decoded
  rw [State.withFetchWord, step_stagedWord, runWord_of_decoded (decodeWord_of_decodeTableWord decoded)]

theorem writeCmd_of_idle {s : State} (h : s.status.busy = false) (v : Word) : writeCmd v s = issue v s :=
  if_neg (by simp [h])

theorem writeCmd_of_busy {s : State} (h : s.status.busy = true) (v : Word) :
    writeCmd v s = { s with status := { s.status with ovr := true } } :=
  if_pos h

/-- Settles O7: CMD is open to a write at any time, which issues or overruns by the value of BUSY; DONE
is 0 after an issue, so irq is low. -/
theorem cmdWriteIssuesOrOverruns : Obligations.CmdWriteIssuesOrOverruns := by
  refine fun s w => ⟨⟨_, hostWrite_offset (accessible_of_open (reg := .cmd) rfl s) w, rfl,
    fun idle => ?_, fun busy => ?_⟩, rfl, rfl⟩
  · rw [writeRegister, writeCmd_of_idle idle]
    exact ⟨rfl, Bool.and_false _⟩
  · rw [writeRegister, writeCmd_of_busy busy]
    rfl

/-! ### NOP (R190) -/

/-- R86: with RSV and OP zero the other fields do not matter. -/
theorem decodeWord_nop {w : Word} (rsv : w.extractLsb' 20 12 = 0) (op : w.extractLsb' 0 4 = 0) :
    decodeWord w = .ok .nop := by
  have opZero : opField w = 0 := congrArg BitVec.toNat op
  rw [decodeWord_of_rsv_zero ((rsvField_eq_zero_iff w).2 rsv), opZero]
  rfl

/-- Settles O31: NOP is a completion over no writes. -/
theorem nopCompletesWithOk : Obligations.NopCompletesWithOk := by
  refine ⟨fun s => ⟨_, rfl, rfl⟩, fun w s rsv op => runWord_of_decoded (decodeWord_nop rsv op) s,
    fun t run => ?_⟩
  cases run
  exact ⟨rfl, rfl⟩

end Sys2Proof.Proofs
end

section
/-! What a command keeps, and the schedule: every command ends in a completion over writes that leave the
control part of the state alone, and every step takes one event off the schedule. -/

namespace Sys2Proof.Proofs
open Sys2Proof Sys2Proof.Machine

/-! ### The control part of the state -/

/-- u differs from s only in what a command's writes may change: the arrays, SEED, ACSCALE and the
buffers. `exec_next` ties it to the commands. -/
structure SameControl (s u : State) : Prop where
  ctrl : u.ctrl = s.ctrl
  status : u.status = s.status
  cmd : u.cmd = s.cmd
  pending : u.pending = s.pending
  schedule : u.schedule = s.schedule
  answer : u.answer = s.answer
  awaiting : u.awaiting = s.awaiting

theorem SameControl.refl (s : State) : SameControl s s := ⟨rfl, rfl, rfl, rfl, rfl, rfl, rfl⟩

/-- t is the completion, with some result, of a command that ran from s. -/
def CompletedFrom (s t : State) : Prop :=
  ∃ (code : ResultCode) (f : Nat) (u : State), SameControl s u ∧ t = complete code f u

theorem completedFrom_complete (code : ResultCode) (f : Nat) (s : State) :
    CompletedFrom s (complete code f s) :=
  ⟨code, f, s, .refl s, rfl⟩

/-- Either end of LEVDUR is a completion over writes to K, and where it is OK to A (42_levinson.md R137,
R138). -/
theorem completedFrom_levdurEnd (s : State) (e : LevEnd) : CompletedFrom s (levdurEnd s e) := by
  cases e with
  | stable ks as =>
    exact ⟨.ok, 0, { s with
        k := writeFrom s.k 0 (ks.map toHalf)
        a := writeFrom s.a 0 ((4096 :: as.map q27ToQ12).map toHalf) },
      ⟨rfl, rfl, rfl, rfl, rfl, rfl, rfl⟩, rfl⟩
  | unstable ks =>
    exact ⟨.unstable, ks.length - 1, { s with k := writeFrom s.k 0 (ks.map toHalf) },
      ⟨rfl, rfl, rfl, rfl, rfl, rfl, rfl⟩, rfl⟩

/-- All that a command can do to the control part: complete (R192, 60_exceptions.md R200). -/
theorem exec_next {i : Instr} {s t : State} (run : exec i s = .next t) : CompletedFrom s t := by
  cases i with
  | nop =>
    cases run
    exact completedFrom_complete .ok 0 s
  | acorr n l src =>
    obtain ⟨-, rfl⟩ | ⟨-, -, xs, -, rfl⟩ := execAcorr_next run
    · exact completedFrom_complete .badParam 0 s
    · exact ⟨.ok, 0, acorrWrites n xs s, ⟨rfl, rfl, rfl, rfl, rfl, rfl, rfl⟩, rfl⟩
  | levdur n =>
    obtain ⟨-, rfl⟩ | ⟨-, rfl⟩ := execLevdur_next run
    · exact completedFrom_complete .badParam 0 s
    · exact completedFrom_levdurEnd s _
  | k2a n =>
    obtain ⟨-, rfl⟩ | ⟨-, rfl⟩ := execK2a_next run
    · exact completedFrom_complete .badParam 0 s
    · exact ⟨.ok, 0, k2aWrites n s, ⟨rfl, rfl, rfl, rfl, rfl, rfl, rfl⟩, rfl⟩
  | noise l dst =>
    obtain ⟨-, rfl⟩ | ⟨-, rfl⟩ := execNoise_next run
    · exact completedFrom_complete .badParam 0 s
    · exact ⟨.ok, 0, noiseWrites l dst s, ⟨rfl, rfl, rfl, rfl, rfl, rfl, rfl⟩, rfl⟩
  | synth n l src dst =>
    obtain ⟨-, rfl⟩ | ⟨-, -, xs, -, rfl⟩ := execSynth_next run
    · exact completedFrom_complete .badParam 0 s
    · exact ⟨.ok, 0, synthWrites dst (synthOutputs n xs s) s,
        ⟨rfl, rfl, rfl, rfl, rfl, rfl, rfl⟩, rfl⟩

/-- The engine's turn completes the pending command, or there is none and nothing happens (R192,
60_exceptions.md R216). -/
theorem engineStep_completes {s t : State} (turn : engineStep s = .next t) :
    CompletedFrom s t ∨ ((s.pending = none ∨ s.status.busy = false) ∧ t = s) := by
  obtain ⟨p, -, -, run⟩ | idle := engineStep_next turn
  · obtain ⟨i, -, run⟩ | ⟨e, -, rfl⟩ := runWord_next run
    · exact .inl (exec_next run)
    · exact .inl (completedFrom_complete .illegal 0 s)
  · exact .inr idle

/-- Settles O9: completion sets only `awaiting` of the model's own fields. -/
theorem commandsKeepTheSchedule : Obligations.CommandsKeepTheSchedule := by
  intro i s t run
  obtain ⟨code, f, u, same, rfl⟩ := exec_next run
  exact ⟨same.schedule, same.answer, by rw [complete_awaiting, same.awaiting, same.ctrl]⟩

/-! ### The schedule (log 1) -/

theorem engineStep_schedule {s t : State} (turn : engineStep s = .next t) : t.schedule = s.schedule := by
  obtain ⟨code, f, u, same, rfl⟩ | ⟨-, rfl⟩ := engineStep_completes turn
  · exact same.schedule
  · rfl

@[simp] theorem observed_schedule (reg : Register) (s : State) :
    (observed reg s).schedule = s.schedule := by
  unfold observed
  split <;> rfl

@[simp] theorem writeRegister_schedule (v : Word) (s : State) (reg : Register) :
    (writeRegister v s reg).schedule = s.schedule := by
  cases reg with
  | ctrl =>
    rw [writeRegister, writeCtrl]
    split <;> rfl
  | cmd =>
    rw [writeRegister, writeCmd]
    split <;> rfl
  | _ => rfl

/-- A step takes the next event off the schedule, if there is one. -/
theorem step_schedule {s t : State} (next : step s = .next t) : t.schedule = s.schedule.tail := by
  obtain ⟨events, turn⟩ | ⟨rest, events, turn⟩ | ⟨rest, events, rfl⟩ | ⟨x, l, rest, events, read⟩ |
    ⟨x, l, v, rest, events, write⟩ := step_next next
  all_goals rw [events, List.tail]
  · rw [engineStep_schedule turn, events]
  · rw [engineStep_schedule turn]
  · rw [hardReset_schedule]
  · obtain ⟨reg, w, -, -, -, rfl⟩ := hostRead_next read
    rw [observed_schedule]
  · obtain ⟨reg, -, -, rfl⟩ := hostWrite_next write
    exact writeRegister_schedule v _ reg

/-! ### Runs -/

/-- A run that ends in a next state takes its first step to one, for any machine. -/
theorem run_succ_next {M : Host.Core} {k : Nat} {s t : M.State} (run : M.run (k + 1) s = .next t) :
    ∃ u, M.step s = .next u ∧ M.run k u = .next t := by
  rw [Host.Core.run] at run
  split at run
  · next u next => exact ⟨u, next, run⟩
  · cases run
  · cases run

/-- With the invariant, the engine's turn leaves nothing pending: a pending command is BUSY, so it is run
to its completion. -/
theorem engineStep_idle {s t : State} (h : s.Inv) (turn : engineStep s = .next t) :
    t.status.busy = false ∧ t.pending = none := by
  obtain ⟨code, f, u, -, rfl⟩ | ⟨empty | idle, rfl⟩ := engineStep_completes turn
  · exact ⟨rfl, rfl⟩
  · exact ⟨by simp [h.busyPending, empty], empty⟩
  · exact ⟨idle, by simpa [idle] using h.busyPending⟩

/-- Settles O55, by induction on the schedule: each event's step keeps the invariant and leaves one event
less; the last step is the engine's turn. -/
theorem exhaustedScheduleLeavesNothingPending : Obligations.ExhaustedScheduleLeavesNothingPending := by
  intro s t h run
  generalize events : s.schedule = es at run
  induction es generalizing s with
  | nil =>
    obtain ⟨u, next, ⟨⟩⟩ := run_succ_next run
    obtain ⟨busy, pending⟩ := engineStep_idle h ((step_of_exhausted events).symm.trans next)
    exact ⟨busy, pending, by rw [step_schedule next, events, List.tail]⟩
  | cons e rest ih =>
    obtain ⟨u, next, run⟩ := run_succ_next run
    exact ih u (stepKeepsTheInvariant s u h next) (by rw [step_schedule next, events, List.tail]) run

end Sys2Proof.Proofs
end

section
/-! The guarded interval (46_control.md R193, 70_reset_and_hazards.md R240; log 8): apart from a STATUS read
with BUSY = 0 and the two resets, the record of an unobserved completion follows irq. -/

namespace Sys2Proof.Proofs
open Sys2Proof Sys2Proof.Machine

/-! ### The record follows irq -/

/-- From s to t the wait for observation ends only with irq high, and does end where irq rises. -/
structure RecordFollowsIrq (s t : State) : Prop where
  keeps : s.awaiting = true → t.irq = false → t.awaiting = true
  ends : s.irq = false → t.irq = true → t.awaiting = false

theorem recordFollowsIrq_of_awaiting_eq {s t : State} (h : t.awaiting = (s.awaiting && !t.irq)) :
    RecordFollowsIrq s t where
  keeps waiting low := by simp [h, waiting, low]
  ends _ high := by simp [h, high]

theorem recordFollowsIrq_of_not_raised {s t : State} (irq : s.irq = false → t.irq = false)
    (awaiting : s.awaiting = true → t.awaiting = true) : RecordFollowsIrq s t where
  keeps waiting _ := awaiting waiting
  ends low high := absurd ((irq low).symm.trans high) Bool.false_ne_true

/-- A completion raises irq exactly where it is enabled, and ends the wait there (60_exceptions.md R205). -/
theorem recordFollowsIrq_of_completedFrom {s t : State} (h : CompletedFrom s t) :
    RecordFollowsIrq s t := by
  obtain ⟨code, f, u, same, rfl⟩ := h
  refine recordFollowsIrq_of_awaiting_eq ?_
  simp [irq_eq, same.awaiting]

theorem engineStep_recordFollowsIrq {s t : State} (turn : engineStep s = .next t) :
    RecordFollowsIrq s t := by
  obtain completed | ⟨-, rfl⟩ := engineStep_completes turn
  · exact recordFollowsIrq_of_completedFrom completed
  · exact recordFollowsIrq_of_not_raised id id

/-- Enabling the interrupt while DONE = 1 raises irq and ends the wait (R193). -/
theorem writeCtrl_recordFollowsIrq {v : Word} (clear : v[1] = false) (s : State) :
    RecordFollowsIrq s (writeCtrl v s) := by
  refine recordFollowsIrq_of_awaiting_eq ?_
  rw [writeCtrl, if_neg (by simp [softResetBit, clear])]
  rfl

/-- An overrun changes neither, and an issue clears DONE and begins a wait (R191). -/
theorem writeCmd_recordFollowsIrq (v : Word) (s : State) : RecordFollowsIrq s (writeCmd v s) := by
  cases busy : s.status.busy with
  | true =>
    rw [writeCmd_of_busy busy]
    exact recordFollowsIrq_of_not_raised id id
  | false =>
    rw [writeCmd_of_idle busy]
    exact recordFollowsIrq_of_not_raised (fun _ => by simp [irq_eq]) fun _ => rfl

/-- Every write but a soft reset; one to STATUS can only lower irq (10_state.md R26). -/
theorem writeRegister_recordFollowsIrq {v : Word} {reg : Register} (h : reg = .ctrl → v[1] = false)
    (s : State) : RecordFollowsIrq s (writeRegister v s reg) := by
  cases reg with
  | ctrl => exact writeCtrl_recordFollowsIrq (h rfl) s
  | cmd => exact writeCmd_recordFollowsIrq v s
  | status =>
    refine recordFollowsIrq_of_not_raised (fun low => ?_) id
    rw [irq_eq] at low
    rw [irq_eq, writeRegister, written_done, ← Bool.and_assoc, low, Bool.false_and]
  | _ => exact recordFollowsIrq_of_not_raised id id

/-! ### Transactions -/

/-- A transaction that selects a register is a 32-bit one at its offset (20_memory.md R63). -/
theorem transaction_of_selectRegister {x : BitVec 16} {l : BitVec 4} {reg : Register}
    (h : selectRegister x l = some reg) : x = BitVec.ofNat 16 reg.offset ∧ l = 0xF := by
  unfold selectRegister at h
  split at h
  · next lanes => exact ⟨by rw [← offset_of_registerAt h, BitVec.ofNat_toNat, BitVec.setWidth_eq], lanes⟩
  · cases h

theorem observed_status_of_idle {s : State} (idle : s.status.busy = false) :
    observed .status s = { s with awaiting := false } :=
  if_pos ⟨rfl, idle⟩

/-- A read follows irq, which it leaves alone, unless it is of STATUS with BUSY = 0. -/
theorem hostRead_recordFollowsIrq {x : BitVec 16} {l : BitVec 4} {s t : State}
    (read : hostRead x l s = .next t) :
    RecordFollowsIrq s t ∨ (x = 0x0008 ∧ l = 0xF ∧ s.status.busy = false ∧ t.awaiting = false) := by
  obtain ⟨reg, w, selected, -, -, rfl⟩ := hostRead_next read
  by_cases observes : reg = .status ∧ s.status.busy = false
  · obtain ⟨rfl, idle⟩ := observes
    obtain ⟨offset, lanes⟩ := transaction_of_selectRegister selected
    refine .inr ⟨offset, lanes, idle, ?_⟩
    exact congrArg State.awaiting (observed_status_of_idle (s := { s with answer := .data w }) idle)
  · have unchanged : observed reg { s with answer := .data w } = { s with answer := .data w } :=
      if_neg observes
    rw [unchanged]
    exact .inl (recordFollowsIrq_of_not_raised id id)

/-- A write follows irq unless it is a soft reset. -/
theorem hostWrite_recordFollowsIrq {x : BitVec 16} {l : BitVec 4} {v : Word} {s t : State}
    (write : hostWrite x l v s = .next t) :
    RecordFollowsIrq s t ∨ (x = 0x0004 ∧ l = 0xF ∧ v[1] = true ∧ t.awaiting = false) := by
  obtain ⟨reg, selected, -, rfl⟩ := hostWrite_next write
  by_cases resets : reg = .ctrl ∧ v[1] = true
  · obtain ⟨rfl, set⟩ := resets
    obtain ⟨offset, lanes⟩ := transaction_of_selectRegister selected
    exact .inr ⟨offset, lanes, set, congrArg State.awaiting (writeCtrl_of_set set s)⟩
  · have clear (isCtrl : reg = .ctrl) : v[1] = false := by simpa [isCtrl] using resets
    obtain ⟨keeps, ends⟩ := writeRegister_recordFollowsIrq clear s
    exact .inl ⟨keeps, ends⟩

/-! ### Steps -/

/-- The events still to come matter neither to irq nor to the record. -/
theorem RecordFollowsIrq.of_schedule {s t : State} {rest : List Event}
    (h : RecordFollowsIrq { s with schedule := rest } t) : RecordFollowsIrq s t :=
  ⟨h.keeps, h.ends⟩

/-- The next event ends the wait for observation whatever irq is: a STATUS read with BUSY = 0, the reset
input or a soft reset. -/
def endsGuardNext (s : State) : Prop :=
  (s.status.busy = false ∧ ∃ rest, s.schedule = .read 0x0008 0xF :: rest) ∨
  (∃ rest, s.schedule = .reset :: rest) ∨
  (∃ v rest, v[1] = true ∧ s.schedule = .write 0x0004 0xF v :: rest)

/-- Every step follows irq or is one of the three events that end the wait by themselves. -/
theorem step_recordFollowsIrq {s t : State} (next : step s = .next t) :
    RecordFollowsIrq s t ∨ (endsGuardNext s ∧ t.awaiting = false) := by
  obtain ⟨-, turn⟩ | ⟨rest, -, turn⟩ | ⟨rest, events, rfl⟩ | ⟨x, l, rest, events, read⟩ |
    ⟨x, l, v, rest, events, write⟩ := step_next next
  · exact .inl (engineStep_recordFollowsIrq turn)
  · exact .inl (engineStep_recordFollowsIrq turn).of_schedule
  · exact .inr ⟨.inr (.inl ⟨rest, events⟩), rfl⟩
  · obtain follows | ⟨rfl, rfl, idle, ended⟩ := hostRead_recordFollowsIrq read
    · exact .inl follows.of_schedule
    · exact .inr ⟨.inl ⟨idle, rest, events⟩, ended⟩
  · obtain follows | ⟨rfl, rfl, set, ended⟩ := hostWrite_recordFollowsIrq write
    · exact .inl follows.of_schedule
    · exact .inr ⟨.inr (.inr ⟨v, rest, set, events⟩), ended⟩

/-- Settles O27: a step that ends the wait either is one of the three events or leaves irq high. -/
theorem onlyObservationEndsTheGuard : Obligations.OnlyObservationEndsTheGuard := by
  intro s t waiting next
  obtain ⟨keeps, -⟩ | ⟨statusRead | resetInput | softReset, -⟩ := step_recordFollowsIrq next
  · cases irq : t.irq with
    | true => exact .inr (.inr (.inl rfl))
    | false => exact .inl (keeps waiting irq)
  · exact .inr (.inl statusRead)
  · exact .inr (.inr (.inr (.inl resetInput)))
  · exact .inr (.inr (.inr (.inr softReset)))

/-- STATUS is open to a read at any time, and with BUSY = 0 the read observes (R193). -/
theorem hostRead_status {s : State} (idle : s.status.busy = false) :
    hostRead 0x0008 0xF s = .next { s with answer := .data s.status.toWord, awaiting := false } := by
  have selected : selectRegister 0x0008 0xF = some .status := selectRegister_offset .status
  rw [hostRead, selected]
  exact congrArg Host.Outcome.next (observed_status_of_idle idle)

/-- Settles O28: the three events by their own rules, a rise of irq by the record. -/
theorem observationDoesEndTheGuard : Obligations.ObservationDoesEndTheGuard := by
  refine fun s => ⟨fun rest events idle => ?_, fun t next low high => ?_, fun rest events => ?_,
    fun v rest set events => ?_⟩
  · exact ⟨_, (step_of_event events).trans (hostRead_status idle), idle, rfl⟩
  · obtain ⟨-, ends⟩ | ⟨-, awaiting⟩ := step_recordFollowsIrq next
    · exact ends low high
    · exact awaiting
  · exact ⟨_, step_of_event events, rfl⟩
  · refine ⟨_, (step_of_event events).trans
      (hostWrite_offset (accessible_of_open (reg := .ctrl) rfl _) v), ?_⟩
    rw [writeRegister, writeCtrl_of_set set]
    rfl

end Sys2Proof.Proofs
end

section
/-! A command as its input and its effect: a legal one reads its input samples, if it has any, and then
completes over its writes; one with an operand out of range completes with BAD_PARAM. What is said of
every command is said of these two functions, one lemma for each. -/

namespace Sys2Proof.Proofs
open Sys2Proof Sys2Proof.Machine

/-! ### Input and effect -/

/-- The input samples of a command, if they are all written; a command that reads no buffer has the
empty input. -/
def commandInput (s : State) : Instr → Option (List Int)
  | .acorr _ l b | .synth _ l b _ => inputSamples s b l
  | .nop | .levdur _ | .k2a _ | .noise _ _ => some []

/-- The state in which a legal command on the input xs completes. -/
def commandEffect (xs : List Int) (s : State) : Instr → State
  | .nop => complete .ok 0 s
  | .acorr n _ _ => complete .ok 0 (acorrWrites n xs s)
  | .levdur n => levdurEnd s (levinson s.modes.k0chk (firstInts s.r (n + 1)))
  | .k2a n => complete .ok 0 (k2aWrites n s)
  | .noise l d => complete .ok 0 (noiseWrites l d s)
  | .synth n _ _ d => complete .ok 0 (synthWrites d (synthOutputs n xs s) s)

theorem exec_acorr {s : State} {n l : Nat} {b : Buf} {xs : List Int}
    (isLegal : legal (.acorr n l b)) (read : inputSamples s b l = some xs) :
    exec (.acorr n l b) s = .next (complete .ok 0 (acorrWrites n xs s)) := by
  obtain ⟨order, lags, nonempty, len⟩ := isLegal
  show execAcorr n l b s = _
  simp [execAcorr, lagsLegal, lenLegal, order, lags, nonempty, len, read]

theorem exec_of_input {i : Instr} {s : State} {xs : List Int} (isLegal : legal i)
    (read : commandInput s i = some xs) : exec i s = .next (commandEffect xs s i) := by
  cases i with
  | nop => rfl
  | acorr n l b => exact exec_acorr isLegal read
  | levdur n => exact exec_levdur isLegal
  | k2a n => exact exec_k2a isLegal
  | noise l d => exact exec_noise isLegal
  | synth n l b d => exact exec_synth isLegal read

theorem exec_of_no_input {i : Instr} {s : State} (isLegal : legal i)
    (unread : commandInput s i = none) : exec i s = .fault .unwrittenBuffer := by
  cases i with
  | acorr n l b =>
    obtain ⟨order, lags, nonempty, len⟩ := isLegal
    rw [commandInput] at unread
    show execAcorr n l b s = _
    simp [execAcorr, lagsLegal, lenLegal, order, lags, nonempty, len, unread]
  | synth n l b d =>
    obtain ⟨pos, order, nonempty, len⟩ := isLegal
    rw [commandInput] at unread
    show execSynth n l b d s = _
    simp [execSynth, orderLegal, lenLegal, pos, order, nonempty, len, unread]
  | nop | levdur | k2a | noise => cases unread

/-- All that a command can do, by its operands and its input (R192, 60_exceptions.md R202). -/
theorem exec_next_cases {i : Instr} {s t : State} (run : exec i s = .next t) :
    (¬ legal i ∧ t = complete .badParam 0 s) ∨
    (legal i ∧ ∃ xs, commandInput s i = some xs ∧ t = commandEffect xs s i) := by
  by_cases isLegal : legal i
  · cases read : commandInput s i with
    | none =>
      rw [exec_of_no_input isLegal read] at run
      cases run
    | some xs =>
      rw [exec_of_input isLegal read] at run
      cases run
      exact .inr ⟨isLegal, xs, rfl, rfl⟩
  · rw [exec_of_not_legal isLegal] at run
    cases run
    exact .inl ⟨isLegal, rfl⟩

theorem exec_unwrittenBuffer_iff {i : Instr} (isLegal : legal i) (s : State) :
    exec i s = .fault .unwrittenBuffer ↔ commandInput s i = none := by
  cases read : commandInput s i with
  | none => simp [exec_of_no_input isLegal read]
  | some xs => simp [exec_of_input isLegal read]

/-- A command goes on unless it waits for an unwritten input sample. -/
theorem exec_next_of_input {i : Instr} {s : State} {xs : List Int} (read : commandInput s i = some xs) :
    ∃ t, exec i s = .next t := by
  by_cases isLegal : legal i
  · exact ⟨_, exec_of_input isLegal read⟩
  · exact ⟨_, exec_of_not_legal isLegal s⟩

end Sys2Proof.Proofs
end

section
/-! Machines that differ in what they know of the buffers (70_reset_and_hazards.md R233, R245). Whatever
goes on with the bytes one memory knows does the same with a memory that knows more. -/

namespace Sys2Proof.Proofs
open Sys2Proof Sys2Proof.Machine

/-! ### The model's operations where they go on -/

theorem engineStep_of_idle {s : State} (idle : s.pending = none ∨ s.status.busy = false) :
    engineStep s = .next s := by
  unfold engineStep
  split
  · next p pending => simp [idle.resolve_left (by simp [pending])]
  · rfl

theorem hostRead_of_selected {x : BitVec 16} {l : BitVec 4} {s : State} {reg : Register} {w : Word}
    (selected : selectRegister x l = some reg) (access : accessible reg s)
    (value : readRegister s reg = some w) :
    hostRead x l s = .next (observed reg { s with answer := .data w }) := by
  unfold accessible at access
  rw [hostRead, selected]
  simp only [access, value, Bool.false_eq_true, if_false]

theorem hostWrite_of_selected {x : BitVec 16} {l : BitVec 4} {v : Word} {s : State} {reg : Register}
    (selected : selectRegister x l = some reg) (access : accessible reg s) :
    hostWrite x l v s = .next { writeRegister v s reg with answer := .ok } := by
  unfold accessible at access
  rw [hostWrite, selected]
  simp only [access, Bool.false_eq_true, if_false]

/-! ### Memories and states that know more -/

theorem extendedBy_refl (m : Memory) : m.extendedBy m := fun _ _ => id

theorem writeSample_extendedBy {m n : Memory} (h : m.extendedBy n) (b : Buf) (i : Nat) (v : Half) :
    (writeSample m b i v).extendedBy (writeSample n b i v) := by
  intro x byte known
  rw [readByte_writeSample] at known ⊢
  split_ifs at known ⊢
  · exact known
  · exact known
  · exact h x byte known

theorem writeSamples_extendedBy {m n : Memory} (h : m.extendedBy n) (b : Buf) (i : Nat)
    (vs : List Half) : (writeSamples m b i vs).extendedBy (writeSamples n b i vs) := by
  induction vs generalizing m n i with
  | nil => exact h
  | cons v vs ih => exact ih (writeSample_extendedBy h b i v) (i + 1)

/-- u is the state t but for its memory, which knows every byte that of t does. -/
def KnowsMore (t u : State) : Prop := ∃ m : Memory, u = { t with mem := m } ∧ t.mem.extendedBy m

/-- The outcome o is a next state that is t but for its memory, which knows more. -/
def GoesOnAs (t : State) (o : StepOutcome) : Prop := ∃ u, o = .next u ∧ KnowsMore t u

theorem readSample_of_extendedBy {m n : Memory} (h : m.extendedBy n) {b : Buf} {i : Nat} {v : Half}
    (known : readSample m b i = some v) : readSample n b i = some v := by
  unfold readSample at known
  split at known
  · next lo hi low high =>
    rw [readSample, h _ _ low, h _ _ high]
    exact known
  · cases known

section Extended
variable {s t : State} {m : Memory} (h : s.mem.extendedBy m)
include h

/-! ### What is read -/

theorem inputSamples_of_extendedBy {b : Buf} {l : Nat} {xs : List Int}
    (read : inputSamples s b l = some xs) : inputSamples { s with mem := m } b l = some xs := by
  obtain ⟨hs, len, entries, values⟩ := inputSamples_eq_some.1 read
  exact inputSamples_eq_some.2
    ⟨hs, len, fun j inFrame => readSample_of_extendedBy h (entries j inFrame), values⟩

theorem commandInput_of_extendedBy {i : Instr} {xs : List Int} (read : commandInput s i = some xs) :
    commandInput { s with mem := m } i = some xs := by
  cases i with
  | acorr | synth => exact inputSamples_of_extendedBy h read
  | nop | levdur | k2a | noise => exact read

theorem readRegister_of_extendedBy {reg : Register} {w : Word} (read : readRegister s reg = some w) :
    readRegister { s with mem := m } reg = some w := by
  cases reg with
  | buf b i =>
    obtain ⟨v, known, rfl⟩ := Option.map_eq_some_iff.1 read
    exact Option.map_eq_some_iff.2 ⟨v, readSample_of_extendedBy h known, rfl⟩
  | _ => exact read

/-! ### What is written -/

theorem levdurEnd_knowsMore (e : LevEnd) :
    KnowsMore (levdurEnd s e) (levdurEnd { s with mem := m } e) := by
  cases e with
  | stable | unstable => exact ⟨m, rfl, h⟩

/-- Only NOISE and SYNTH write a buffer, and what they write depends on no buffer but through the
input. -/
theorem commandEffect_knowsMore (xs : List Int) (i : Instr) :
    KnowsMore (commandEffect xs s i) (commandEffect xs { s with mem := m } i) := by
  cases i with
  | nop | acorr | k2a => exact ⟨m, rfl, h⟩
  | levdur n => exact levdurEnd_knowsMore h _
  | noise | synth => exact ⟨_, rfl, writeSamples_extendedBy h _ _ _⟩

theorem writeRegister_knowsMore (v : Word) (reg : Register) :
    KnowsMore (writeRegister v s reg) (writeRegister v { s with mem := m } reg) := by
  cases reg with
  | buf b i => exact ⟨_, rfl, writeSample_extendedBy h _ _ _⟩
  | ctrl =>
    simp only [writeRegister, writeCtrl]
    split <;> exact ⟨m, rfl, h⟩
  | cmd =>
    simp only [writeRegister, writeCmd]
    split <;> exact ⟨m, rfl, h⟩
  | _ => exact ⟨m, rfl, h⟩

theorem observed_knowsMore (reg : Register) :
    KnowsMore (observed reg s) (observed reg { s with mem := m }) := by
  unfold observed
  split <;> exact ⟨m, rfl, h⟩

/-! ### What goes on goes on alike -/

theorem exec_goesOn {i : Instr} (run : exec i s = .next t) : GoesOnAs t (exec i { s with mem := m }) := by
  obtain ⟨illegal, rfl⟩ | ⟨isLegal, xs, read, rfl⟩ := exec_next_cases run
  · exact ⟨_, exec_of_not_legal illegal _, m, rfl, h⟩
  · exact ⟨_, exec_of_input isLegal (commandInput_of_extendedBy h read), commandEffect_knowsMore h xs i⟩

theorem runWord_goesOn {w : Word} (run : runWord w s = .next t) :
    GoesOnAs t (runWord w { s with mem := m }) := by
  obtain ⟨i, decoded, run⟩ | ⟨e, illegal, rfl⟩ := runWord_next run
  · rw [runWord_of_decoded decoded]
    exact exec_goesOn h run
  · exact ⟨_, runWord_of_illegal illegal _, m, rfl, h⟩

theorem engineStep_goesOn (turn : engineStep s = .next t) :
    GoesOnAs t (engineStep { s with mem := m }) := by
  obtain ⟨p, pending, busy, run⟩ | ⟨idle, rfl⟩ := engineStep_next turn
  · rw [engineStep_of_pending (s := { s with mem := m }) pending busy]
    exact runWord_goesOn h run
  · exact ⟨_, engineStep_of_idle (s := { t with mem := m }) idle, m, rfl, h⟩

theorem hostRead_goesOn {x : BitVec 16} {l : BitVec 4} (read : hostRead x l s = .next t) :
    GoesOnAs t (hostRead x l { s with mem := m }) := by
  obtain ⟨reg, w, selected, access, value, rfl⟩ := hostRead_next read
  refine ⟨_, hostRead_of_selected (s := { s with mem := m }) selected access
    (readRegister_of_extendedBy h value), ?_⟩
  exact observed_knowsMore (s := { s with answer := .data w }) h reg

theorem hostWrite_goesOn {x : BitVec 16} {l : BitVec 4} {v : Word} (write : hostWrite x l v s = .next t) :
    GoesOnAs t (hostWrite x l v { s with mem := m }) := by
  obtain ⟨reg, selected, access, rfl⟩ := hostWrite_next write
  obtain ⟨m', written, more⟩ := writeRegister_knowsMore h v reg
  refine ⟨_, hostWrite_of_selected (s := { s with mem := m }) selected access, m', ?_, more⟩
  rw [written]

end Extended

theorem step_goesOn {s t : State} {m : Memory} (h : s.mem.extendedBy m) (next : step s = .next t) :
    GoesOnAs t (step { s with mem := m }) := by
  obtain ⟨events, turn⟩ | ⟨rest, events, turn⟩ | ⟨rest, events, rfl⟩ | ⟨x, l, rest, events, read⟩ |
    ⟨x, l, v, rest, events, write⟩ := step_next next
  · rw [step_of_exhausted (s := { s with mem := m }) events]
    exact engineStep_goesOn h turn
  all_goals rw [step_of_event (s := { s with mem := m }) events]
  · exact engineStep_goesOn (s := { s with schedule := rest }) h turn
  · exact ⟨_, rfl, [], rfl, extendedBy_refl []⟩
  · exact hostRead_goesOn (s := { s with schedule := rest }) h read
  · exact hostWrite_goesOn (s := { s with schedule := rest }) h write

/-- Settles O56: whatever the next event is, it goes on alike with more bytes known. -/
theorem stepKeepsExtendedMemory : Obligations.StepKeepsExtendedMemory := by
  intro s t m more next
  obtain ⟨u, next', m', rfl, more'⟩ := step_goesOn more next
  exact ⟨m', next', more'⟩

theorem run_succ_of_next {M : Host.Core} {k : Nat} {s u : M.State} (next : M.step s = .next u) :
    M.run (k + 1) s = M.run k u := by
  rw [Host.Core.run, next]

/-- Settles O57, by induction on the number of steps: each keeps the relation (O56). -/
theorem unwrittenEntriesNeverMatter : Obligations.UnwrittenEntriesNeverMatter := by
  intro k
  induction k with
  | zero =>
    intro s t m more run
    cases run
    exact ⟨m, rfl, more⟩
  | succ k ih =>
    intro s t m more run
    obtain ⟨u, next, rest⟩ := run_succ_next run
    obtain ⟨m', next', more'⟩ := stepKeepsExtendedMemory s u m more next
    rw [run_succ_of_next (M := Sys2Proof.core) next']
    exact ih u t m' more' rest

end Sys2Proof.Proofs
end

section
/-! How a command completes (60_exceptions.md R200 to R203): the result code and FAILIDX its word allows,
over writes that leave the control part of the state alone; and what of CTRL it depends on
(70_reset_and_hazards.md R242). -/

namespace Sys2Proof.Proofs
open Sys2Proof Sys2Proof.Machine

/-! ### The result of a command word -/

/-- The result codes and FAILIDX with which a word may complete. `runWord_completes` ties it to the
engine. -/
inductive MayComplete (w : Word) : ResultCode → Nat → Prop
  | illegal {e : DecodeError} : decodeWord w = .error e → MayComplete w .illegal 0
  | badParam {i : Instr} : decodeWord w = .ok i → ¬ legal i → MayComplete w .badParam 0
  | ok {i : Instr} : decodeWord w = .ok i → legal i → MayComplete w .ok 0
  | unstable {n f : Nat} : decodeWord w = .ok (.levdur n) → legal (.levdur n) → MayComplete w .unstable f

/-- The effect of a legal command is a completion with OK, or LEVDUR's with UNSTABLE. -/
theorem commandEffect_completes (xs : List Int) (s : State) (i : Instr) :
    ∃ u, SameControl s u ∧ (commandEffect xs s i = complete .ok 0 u ∨
      ∃ n f, i = .levdur n ∧ commandEffect xs s i = complete .unstable f u) := by
  cases i with
  | nop => exact ⟨s, .refl s, .inl rfl⟩
  | acorr n l b => exact ⟨acorrWrites n xs s, ⟨rfl, rfl, rfl, rfl, rfl, rfl, rfl⟩, .inl rfl⟩
  | k2a n => exact ⟨k2aWrites n s, ⟨rfl, rfl, rfl, rfl, rfl, rfl, rfl⟩, .inl rfl⟩
  | noise l d => exact ⟨noiseWrites l d s, ⟨rfl, rfl, rfl, rfl, rfl, rfl, rfl⟩, .inl rfl⟩
  | synth n l b d =>
    exact ⟨synthWrites d (synthOutputs n xs s) s, ⟨rfl, rfl, rfl, rfl, rfl, rfl, rfl⟩, .inl rfl⟩
  | levdur n =>
    rw [commandEffect]
    cases levinson s.modes.k0chk (firstInts s.r (n + 1)) with
    | stable ks as =>
      exact ⟨{ s with
          k := writeFrom s.k 0 (ks.map toHalf)
          a := writeFrom s.a 0 ((4096 :: as.map q27ToQ12).map toHalf) },
        ⟨rfl, rfl, rfl, rfl, rfl, rfl, rfl⟩, .inl rfl⟩
    | unstable ks =>
      exact ⟨{ s with k := writeFrom s.k 0 (ks.map toHalf) },
        ⟨rfl, rfl, rfl, rfl, rfl, rfl, rfl⟩, .inr ⟨n, _, rfl, rfl⟩⟩

/-- A word that runs to a next state completes there, with a result it may have. -/
theorem runWord_completes {w : Word} {s t : State} (run : runWord w s = .next t) :
    ∃ code f u, MayComplete w code f ∧ SameControl s u ∧ t = complete code f u := by
  obtain ⟨i, decoded, run⟩ | ⟨e, illegal, rfl⟩ := runWord_next run
  · obtain ⟨illegal, rfl⟩ | ⟨isLegal, xs, -, rfl⟩ := exec_next_cases run
    · exact ⟨_, _, s, .badParam decoded illegal, .refl s, rfl⟩
    · obtain ⟨u, same, effect | ⟨n, f, rfl, effect⟩⟩ := commandEffect_completes xs s i
      · exact ⟨_, _, u, .ok decoded isLegal, same, effect⟩
      · exact ⟨_, _, u, .unstable decoded isLegal, same, effect⟩
  · exact ⟨_, _, s, .illegal illegal, .refl s, rfl⟩

/-- Settles O8: completion leaves the control part, and each way to complete decides the clauses about
the result. -/
theorem completionRecordsResult : Obligations.CompletionRecordsResult := by
  refine ⟨fun c f s => rfl, fun w s t run => ?_⟩
  obtain ⟨code, f, u, may, same, rfl⟩ := runWord_completes run
  refine ⟨rfl, rfl, by rw [complete_status, completed_ovr, same.status], rfl, same.cmd, same.ctrl, ?_⟩
  rw [complete_status, completed_result, completed_failidx]
  cases may with
  | illegal decoded => simp [decoded]
  | badParam decoded notLegal => simp [decoded, notLegal]
  | ok decoded isLegal => simp [decoded, isLegal]
  | unstable decoded isLegal => simp [decoded, isLegal]

/-- Settles O10: the decoder rejects such a word (O4), and a rejected word only completes. -/
theorem illegalWordChangesOnlyStatus : Obligations.IllegalWordChangesOnlyStatus := by
  intro w s illegal
  cases decoded : decodeWord w with
  | error e => exact ⟨_, runWord_of_illegal decoded s, rfl⟩
  | ok i =>
    obtain ⟨rsv, op⟩ := (illegalWordsExactly w).2.2.1 ⟨i, decoded⟩
    exact absurd op (illegal.resolve_left (not_not_intro rsv)).not_gt

/-- Settles O11: operands out of range only complete; 640 is in the range of each length, 641 is not. -/
theorem badParamChangesOnlyStatus : Obligations.BadParamChangesOnlyStatus := by
  have badParam {i : Instr} (illegal : ¬ legal i) (s : State) :
      ∃ t, exec i s = .next t ∧ t.status.result = .badParam :=
    ⟨_, exec_of_not_legal illegal s, rfl⟩
  refine ⟨fun i s illegal => ⟨_, exec_of_not_legal illegal s, rfl⟩,
    fun s d => ⟨_, exec_noise (by simp [legal]), rfl⟩,
    fun s n b x order holds => ⟨_, exec_acorr ?_ (inputSamples_of_holdsSamples holds), rfl⟩,
    fun s n b d x pos order holds => ⟨_, exec_synth ?_ (inputSamples_of_holdsSamples holds), rfl⟩,
    fun s n b d => ⟨badParam ?_ s, badParam ?_ s, badParam ?_ s⟩⟩
  · simp only [legal]
    omega
  · simp [legal, pos, order]
  all_goals simp [legal]

/-! ### The mode bits (R242) -/

/-- With a command pending, CTRL is no part of what the command sees, so its effect is the same but for
CTRL and the record of observation, which irq's rise depends on. -/
theorem commandEffect_ctrl {s : State} {p : Pending} (pending : s.pending = some p) (c : Ctrl)
    (xs : List Int) (i : Instr) :
    (commandEffect xs { s with ctrl := c } i).arch = { commandEffect xs s i with ctrl := c }.arch := by
  have sampled : State.modes { s with ctrl := c } = s.modes :=
    (modes_of_pending (s := { s with ctrl := c }) pending).trans (modes_of_pending pending).symm
  cases i with
  | nop | acorr | k2a => rfl
  | levdur n =>
    rw [commandEffect, commandEffect, sampled]
    cases levinson s.modes.k0chk (firstInts s.r (n + 1)) <;> rfl
  | noise =>
    simp only [commandEffect, noiseWrites, sampled]
    rfl
  | synth =>
    simp only [commandEffect, synthOutputs, sampled]
    rfl

/-- Settles O12: operands and input samples do not depend on CTRL, and the effect sees PENDING's mode
bits. -/
theorem modeBitsAreSampledAtIssue : Obligations.ModeBitsAreSampledAtIssue := by
  intro i s t p c pending run
  refine ⟨modes_of_pending pending, ?_⟩
  obtain ⟨illegal, rfl⟩ | ⟨isLegal, xs, read, rfl⟩ := exec_next_cases run
  · exact ⟨_, exec_of_not_legal illegal _, rfl⟩
  · have read' : commandInput { s with ctrl := c } i = some xs := by
      rw [← read]
      cases i <;> rfl
    exact ⟨_, exec_of_input isLegal read', commandEffect_ctrl pending c xs i⟩

end Sys2Proof.Proofs
end

section
/-! The resets (70_reset_and_hazards.md R230, R232, R233), the interrupt output (60_exceptions.md R205) and
the faults of the host's program (70_reset_and_hazards.md R240, R245). -/

namespace Sys2Proof.Proofs
open Sys2Proof Sys2Proof.Machine

/-! ### Writes to CTRL, STATUS and CMD -/

/-- The three are open to a write at any time (R240). -/
theorem hostWrite_ctrl (v : Word) (s : State) :
    hostWrite 0x0004 0xF v s = .next { writeCtrl v s with answer := .ok } :=
  hostWrite_offset (accessible_of_open (reg := .ctrl) rfl s) v

theorem hostWrite_status (v : Word) (s : State) :
    hostWrite 0x0008 0xF v s = .next { s with status := s.status.written v, answer := .ok } :=
  hostWrite_offset (accessible_of_open (reg := .status) rfl s) v

theorem hostWrite_cmd (v : Word) (s : State) :
    hostWrite 0x000C 0xF v s = .next { writeCmd v s with answer := .ok } :=
  hostWrite_offset (accessible_of_open (reg := .cmd) rfl s) v

theorem hostWrite_softReset {v : Word} (set : v[1] = true) (s : State) :
    hostWrite 0x0004 0xF v s = .next { softReset s with answer := .ok } := by
  rw [hostWrite_ctrl, writeCtrl_of_set set]

/-! ### The resets -/

/-- Settles O14: the reset event, on the schedule that is left. -/
theorem hardResetRestoresResetState : Obligations.HardResetRestoresResetState :=
  fun _ _ events => ⟨_, step_of_event events, rfl, rfl, rfl⟩

/-- Settles O15: the write is a soft reset, which keeps the buffers alone of the engine's state. -/
theorem softResetKeepsOnlyBuffers : Obligations.SoftResetKeepsOnlyBuffers :=
  fun s _ set => ⟨_, hostWrite_softReset set s, rfl, rfl⟩

/-- Settles O58: the two soft resets leave the same state, and the rest of the run is a function of it. -/
theorem softResetForgetsEverythingElse : Obligations.SoftResetForgetsEverythingElse := by
  intro k s t v rest set buffers events events'
  have reset {u : State} (events : u.schedule = .write 0x0004 0xF v :: rest) :
      step u = .next { softReset { u with schedule := rest } with answer := .ok } :=
    (step_of_event events).trans (hostWrite_softReset set _)
  rw [run_succ_of_next (M := Sys2Proof.core) (reset events),
    run_succ_of_next (M := Sys2Proof.core) (reset events')]
  simp only [softReset, buffers]

/-! ### The interrupt output -/

theorem irq_of_not_done {s : State} (h : s.status.done = false) : s.irq = false := by
  rw [irq_eq, h, Bool.and_false]

/-- A CTRL write lowers irq by clearing IRQ_EN or by a reset. -/
theorem writeCtrl_irq_low {v : Word} (h : v[0] = false ∨ v[1] = true) (s : State) :
    (writeCtrl v s).irq = false := by
  cases reset : v[1] with
  | true =>
    rw [writeCtrl_of_set reset]
    rfl
  | false =>
    have disabled : v[0] = false := h.resolve_right (by simp [reset])
    have ctrl : (writeCtrl v s).ctrl = ctrlOfWord v := congrArg State.ctrl (writeCtrl_of_clear reset s)
    rw [irq_eq, ctrl, ctrlOfWord, disabled, Bool.false_and]

/-- Settles O30: irq by its definition, and each cause by what it does to IRQ_EN and DONE. -/
theorem irqIsEnableAndDone : Obligations.IrqIsEnableAndDone := by
  refine fun s => ⟨by rw [irq_eq, Bool.and_eq_true], fun v set => ⟨_, hostWrite_status v s, ?_⟩,
    fun w idle => ⟨_, hostWrite_cmd w s, ?_⟩, fun v lowers => ⟨_, hostWrite_ctrl v s, ?_⟩,
    fun rest events => ⟨_, step_of_event events, rfl⟩, fun w t run => ?_⟩
  · refine irq_of_not_done ?_
    simp [set]
  · rw [writeCmd_of_idle idle]
    exact irq_of_not_done rfl
  · exact writeCtrl_irq_low lowers s
  · obtain ⟨code, f, u, -, same, rfl⟩ := runWord_completes run
    simp [irq_eq, same.ctrl]

/-! ### The host's faults -/

theorem guarded_eq_false_iff (reg : Register) : reg.guarded = false ↔
    reg = .id ∨ reg = .ctrl ∨ reg = .status ∨ reg = .cmd ∨ ∃ i, reg = .ntab i := by
  cases reg <;> simp [Register.guarded]

/-- Only a buffer entry may be without a value, and the buffers are guarded. -/
theorem readRegister_of_open {reg : Register} (isOpen : reg.guarded = false) (s : State) :
    ∃ w, readRegister s reg = some w := by
  cases reg with
  | buf => cases isOpen
  | _ => exact ⟨_, rfl⟩

theorem hostRead_guarded {reg : Register} {s : State} (h : (reg.guarded && s.guards) = true) :
    hostRead (BitVec.ofNat 16 reg.offset) 0xF s = .fault .guardedAccess := by
  rw [hostRead, selectRegister_offset]
  exact if_pos h

theorem hostWrite_guarded {reg : Register} {s : State} (h : (reg.guarded && s.guards) = true) (v : Word) :
    hostWrite (BitVec.ofNat 16 reg.offset) 0xF v s = .fault .guardedAccess := by
  rw [hostWrite, selectRegister_offset]
  exact if_pos h

/-- An accessible register without a value faults the read (R245). -/
theorem hostRead_unwritten {reg : Register} {s : State} (access : accessible reg s)
    (value : readRegister s reg = none) :
    hostRead (BitVec.ofNat 16 reg.offset) 0xF s = .fault .unwrittenBuffer := by
  unfold accessible at access
  rw [hostRead, selectRegister_offset]
  simp only [access, value, Bool.false_eq_true, if_false]

/-- Settles O26: the registers the host may access at any time are the open ones, and the state guards
the others. -/
theorem guardedAccessFaults : Obligations.GuardedAccessFaults := by
  intro s reg v running
  have guards : s.guards = true := by simpa [State.guards] using running
  rw [← guarded_eq_false_iff]
  refine ⟨fun isOpen => ?_, fun notOpen => ?_⟩
  · have access := accessible_of_open isOpen s
    obtain ⟨w, value⟩ := readRegister_of_open isOpen s
    obtain ⟨t, read, -, -⟩ := readsAs_offset access value
    exact ⟨⟨t, read⟩, _, hostWrite_offset access v⟩
  · have denied : (reg.guarded && s.guards) = true := by
      rw [guards, Bool.and_true]
      exact Bool.not_eq_false _ ▸ notOpen
    exact ⟨hostRead_guarded denied, hostWrite_guarded denied v⟩

/-- Settles O29: a legal command faults exactly where its input is missing, and only ACORR and SYNTH
have one. -/
theorem unwrittenBufferFaults : Obligations.UnwrittenBufferFaults := by
  refine fun s => ⟨fun n l b isLegal => ?_, fun n l b d isLegal => ?_,
    fun b i busy awaiting unwritten => ?_, fun i notAcorr notSynth => ?_⟩
  · exact (exec_unwrittenBuffer_iff isLegal s).trans inputSamples_eq_none
  · exact (exec_unwrittenBuffer_iff isLegal s).trans inputSamples_eq_none
  · refine hostRead_unwritten (reg := .buf b i) (accessible_of_idle busy awaiting _) ?_
    rw [readRegister, unwritten, Option.map_none]
  · cases i with
    | acorr n l b => exact absurd rfl (notAcorr n l b)
    | synth n l b d => exact absurd rfl (notSynth n l b d)
    | nop | levdur | k2a | noise => exact exec_next_of_input (xs := []) rfl

end Sys2Proof.Proofs
end
